-- ==== Sys2Proof/Word.lean ====
section
/-! DEFINITION. The word types of the block (R9): a byte is an unsigned value of eight bits, a u16 one of sixteen.
Byte order and sign extension are in Machine/Operands.lean. -/

namespace Sys2Proof

/-- A byte, u8 (R9). -/
abbrev Byte := BitVec 8

/-- A u16: indices, lengths, checksums, two-byte payloads (R8, R9). -/
abbrev U16 := BitVec 16

end Sys2Proof
end

