-- ==== Sys2Proof/Config.lean ====
section
/-! DEFINITION. What an implementation fixes (R8): the parameters the spec leaves to the implementation, and the
machine's own choice of them. BUF_MAX is OPEN in the spec, so the machine's value is opaque: nothing in Lean can
evaluate it, and all that a proof can use is 39 ≤ BUF_MAX ≤ 65535. -/

namespace Sys2Proof

/-- The two candidates for `tempdec(100)` (R8, U9): "Only the values 100 and 0 are candidates". -/
inductive TempAt100 where
  /-- +100, the decode rule of R151; the spec's resolution of its conflict C10. -/
  | hundred
  /-- 0, the losing reading of C10. -/
  | zero
deriving DecidableEq, Repr

/-- The implementation parameters of R8 that an execution can show. `TREE_W` is not among them: it is not observable
(R104) and is an argument of the reduction tree (log 14). -/
structure Config where
  /-- `BUF_MAX`, bytes of the response buffer. -/
  bufMax : Nat
  /-- `TEMP_AT_100`. -/
  tempAt100 : TempAt100
  /-- `CELL_PARTIAL` (R183): whether a cell block whose length is not a multiple of 3 yields its complete groups. -/
  cellPartial : Bool
deriving DecidableEq, Repr

/-- The bounds R8 puts on `BUF_MAX`. -/
def Config.Ok (c : Config) : Prop := 39 ≤ c.bufMax ∧ c.bufMax ≤ 65535

/-- How far the machine's `BUF_MAX` lies above 39: any of 0 to 65496. DESIGN CHOICE of form, log 1 (safe). -/
opaque Config.bufMaxSlack : Fin 65497

/-- The machine's parameters: `BUF_MAX` open between 39 and 65535, the other two at the spec's defaults (logs 1, 2, 3). -/
def Config.machine : Config where
  bufMax := Config.bufMaxSlack.val + 39
  tempAt100 := .hundred
  cellPartial := false

end Sys2Proof
end

