-- ==== Sys2Proof/Syntax.lean ====
section
/-! DEFINITION. Abstract syntax: one constructor of `Instr` per row of spec/opcode_table.json. -/

namespace Sys2Proof

/-- The byte source of CSUM and VERIFY, the field `sel` of the command word (R71): 0 = `TXF`, 1 = `RXB`. -/
inductive Source where
  | txf
  | rxb
deriving DecidableEq, Repr

/-- The seventeen field ids of R25, in the table's order. -/
inductive FieldId where
  | cells | ttube | tbox | tcell | volt | cur | soc | ntemp | nstr | warn | bal | calma | swver | calst | cap | proto | delta
deriving DecidableEq, Repr

/-- The instructions: five commands, three reserved operation codes, two pseudo-commands, sixteen tag operations and
the derived operation (R70, R73, R80, R86). -/
inductive Instr where
  /-- `LOAD n` (R53); the n bytes come on DATA_IN. -/
  | load (n : U16)
  /-- `BUILD` (R121). -/
  | build
  /-- `CSUM sel, a, b` (R106). -/
  | csum (sel : Source) (a b : U16)
  /-- `VERIFY sel, a, b, c` (R107). -/
  | verify (sel : Source) (a b c : U16)
  /-- `DECODE` (R131). -/
  | decode
  /-- Operation code 5, reserved (R73). -/
  | reserved5
  /-- Operation code 6, reserved (R73). -/
  | reserved6
  /-- Operation code 7, reserved (R73). -/
  | reserved7
  /-- `CHKFRAME` = `VERIFY TXF, 0, 17, 19` (R86). -/
  | chkframe
  /-- `CSUMALL` = `CSUM RXB, 0, b`, where `b` holds the `RXLEN` of the moment the word was written (R86). -/
  | csumall (b : U16)
  /-- Cell voltages, tag 0x79 (R181). -/
  | f79
  /-- Power-tube temperature, tag 0x80 (R152). -/
  | f80
  /-- Battery-box temperature, tag 0x81 (R153). -/
  | f81
  /-- Battery-cell temperature, tag 0x82 (R154). -/
  | f82
  /-- Total voltage, tag 0x83 (R156). -/
  | f83
  /-- Current, tag 0x84 (R157). -/
  | f84
  /-- State of charge, tag 0x85 (R158). -/
  | f85
  /-- Temperature sensor count, tag 0x86 (R159). -/
  | f86
  /-- Battery string count, tag 0x8A (R161). -/
  | f8a
  /-- Warning flags, tag 0x8B (R162). -/
  | f8b
  /-- Active balance switch, tag 0x9D (R163). -/
  | f9d
  /-- Current calibration, tag 0xAD (R164). -/
  | fad
  /-- Software version, tag 0xB7 (R185). -/
  | fb7
  /-- Calibration active flag, tag 0xB8 (R165). -/
  | fb8
  /-- Actual capacity, tag 0xB9 (R166). -/
  | fb9
  /-- Protocol version, tag 0xC0 (R167). -/
  | fc0
  /-- Delta voltage, derived; no tag and no encoding (R186, R80). -/
  | fdelta
deriving DecidableEq, Repr

end Sys2Proof
end

