-- ==== Sys2Proof/WellFormed.lean ====
section
/-! DEFINITION. Which terms of `Instr` a decoder can produce. Operand widths are in the types; what is left to check is
that a word which has a pseudo-command's name (R86) is written by that name, so that every word has one term. -/

namespace Sys2Proof

/-- The operands of `CHKFRAME` (R86). -/
def isChkframe (sel : Source) (a b c : U16) : Bool :=
  sel == .txf && a == 0 && b == 17 && c == 19

/-- The operands of `CSUMALL` (R86): the whole buffer from index 0. -/
def isCsumall (sel : Source) (a : U16) : Bool :=
  sel == .rxb && a == 0

/-- A term is well formed unless it spells out a pseudo-command by the long name. DESIGN CHOICE, log 12 (safe). -/
def Instr.wellFormed : Instr → Bool
  | .csum sel a _ => !isCsumall sel a
  | .verify sel a b c => !isChkframe sel a b c
  | _ => true

end Sys2Proof
end

