-- ==== Sys2Proof/Decode.lean ====
section
/-! DEFINITION. Decoder and encoder, from the encodings of 30_encoding.md: the command word `CW` (R71, R72, R73), the
tag byte of a response entry (R78, R80, R83), and FDELTA, which has no encoding (R80). -/

namespace Sys2Proof

/-- What an instruction is read from. -/
inductive Encoding where
  /-- A command word on CMD_IN, 52 bits (R71). -/
  | cw (w : BitVec 52)
  /-- The first byte of a response-buffer entry (R78). -/
  | tag (b : Byte)
  /-- No bits at all: FDELTA, "derived from the decoded cell-voltage sequence, not tag-extracted" (R80). -/
  | derived
deriving DecidableEq, Repr

/-- Why nothing can be decoded. -/
inductive DecodeError where
  /-- One of the 240 byte values that are not tags (R83). Raised by `decodeTag`; safe: the byte is data. -/
  | notATag (b : Byte)
deriving DecidableEq, Repr

/-- `CW[2:0]`, the operation code (R71). -/
def cwOp (w : BitVec 52) : BitVec 3 := w.extractLsb' 0 3

/-- `CW[3]`, the byte source (R71). -/
def cwSel (w : BitVec 52) : BitVec 1 := w.extractLsb' 3 1

/-- `CW[19:4]` (R71). -/
def cwA (w : BitVec 52) : U16 := w.extractLsb' 4 16

/-- `CW[35:20]` (R71). -/
def cwB (w : BitVec 52) : U16 := w.extractLsb' 20 16

/-- `CW[51:36]` (R71). -/
def cwC (w : BitVec 52) : U16 := w.extractLsb' 36 16

/-- The code of a byte source: 0 = `TXF`, 1 = `RXB` (R71). -/
def selBit : Source → BitVec 1
  | .txf => 0
  | .rxb => 1

/-- The byte source a code names (R71). -/
def sourceOf (b : BitVec 1) : Source := if b = 0 then .txf else .rxb

/-- The command a word carries, matching `CW[2:0]` only (R72, R73). Fields a command does not use are dropped. -/
def decodeOp (w : BitVec 52) : Instr :=
  match (cwOp w).toNat with
  | 0 => .load (cwA w)
  | 1 => .build
  | 2 => .csum (sourceOf (cwSel w)) (cwA w) (cwB w)
  | 3 => .verify (sourceOf (cwSel w)) (cwA w) (cwB w) (cwC w)
  | 4 => .decode
  | 5 => .reserved5
  | 6 => .reserved6
  | _ => .reserved7

/-- The name a command goes by: the pseudo-command of R86 where its operands are that pseudo-command's (log 12). -/
def Instr.named : Instr → Instr
  | .csum sel a b => if isCsumall sel a then .csumall b else .csum sel a b
  | .verify sel a b c => if isChkframe sel a b c then .chkframe else .verify sel a b c
  | i => i

/-- The real command a pseudo-command stands for (R86: "each one real command"). -/
def Instr.expand : Instr → Instr
  | .chkframe => .verify .txf 0 17 19
  | .csumall b => .csum .rxb 0 b
  | i => i

/-- The instruction of a command word: every word has one (R72, R73). -/
def decodeCommand (w : BitVec 52) : Instr := (decodeOp w).named

/-- The tag operation of a tag byte, by exact match (R80); any other byte is data (R83). -/
def decodeTag (b : Byte) : Except DecodeError Instr :=
  match b.toNat with
  | 0x79 => .ok .f79
  | 0x80 => .ok .f80
  | 0x81 => .ok .f81
  | 0x82 => .ok .f82
  | 0x83 => .ok .f83
  | 0x84 => .ok .f84
  | 0x85 => .ok .f85
  | 0x86 => .ok .f86
  | 0x8A => .ok .f8a
  | 0x8B => .ok .f8b
  | 0x9D => .ok .f9d
  | 0xAD => .ok .fad
  | 0xB7 => .ok .fb7
  | 0xB8 => .ok .fb8
  | 0xB9 => .ok .fb9
  | 0xC0 => .ok .fc0
  | _ => .error (.notATag b)

/-- The decoder, total: an instruction, or the named reason there is none. -/
def decode : Encoding → Except DecodeError Instr
  | .cw w => .ok (decodeCommand w)
  | .tag b => decodeTag b
  | .derived => .ok .fdelta

/-- A command word from its fields: `op | sel << 3 | a << 4 | b << 20 | c << 36` (R86). -/
def packCW (op : BitVec 3) (sel : BitVec 1) (a b c : U16) : BitVec 52 :=
  c ++ b ++ a ++ sel ++ op

/-- The encoding of an instruction; a field the command does not use is 0 (log 23). -/
def encode : Instr → Encoding
  | .load n => .cw (packCW 0 0 n 0 0)
  | .build => .cw (packCW 1 0 0 0 0)
  | .csum sel a b => .cw (packCW 2 (selBit sel) a b 0)
  | .verify sel a b c => .cw (packCW 3 (selBit sel) a b c)
  | .decode => .cw (packCW 4 0 0 0 0)
  | .reserved5 => .cw (packCW 5 0 0 0 0)
  | .reserved6 => .cw (packCW 6 0 0 0 0)
  | .reserved7 => .cw (packCW 7 0 0 0 0)
  | .chkframe => .cw (packCW 3 0 0 17 19)
  | .csumall b => .cw (packCW 2 1 0 b 0)
  | .f79 => .tag 0x79
  | .f80 => .tag 0x80
  | .f81 => .tag 0x81
  | .f82 => .tag 0x82
  | .f83 => .tag 0x83
  | .f84 => .tag 0x84
  | .f85 => .tag 0x85
  | .f86 => .tag 0x86
  | .f8a => .tag 0x8A
  | .f8b => .tag 0x8B
  | .f9d => .tag 0x9D
  | .fad => .tag 0xAD
  | .fb7 => .tag 0xB7
  | .fb8 => .tag 0xB8
  | .fb9 => .tag 0xB9
  | .fc0 => .tag 0xC0
  | .fdelta => .derived

/-- A row of spec/opcode_table.json: the bits of `mask` are fixed and equal those of `pattern`. -/
structure TableRow where
  width : Nat
  pattern : Nat
  mask : Nat
deriving DecidableEq, Repr

/-- The row of an instruction, its `width_bits`, `match` and `mask` as the table has them. -/
def tableRow : Instr → TableRow
  | .load _ => ⟨52, 0x0, 0x7⟩
  | .build => ⟨52, 0x1, 0x7⟩
  | .csum _ _ _ => ⟨52, 0x2, 0x7⟩
  | .verify _ _ _ _ => ⟨52, 0x3, 0x7⟩
  | .decode => ⟨52, 0x4, 0x7⟩
  | .reserved5 => ⟨52, 0x5, 0x7⟩
  | .reserved6 => ⟨52, 0x6, 0x7⟩
  | .reserved7 => ⟨52, 0x7, 0x7⟩
  | .chkframe => ⟨52, 0x13001100003, 0xFFFFFFFFFFFFF⟩
  | .csumall _ => ⟨52, 0xA, 0xFFFFF⟩
  | .f79 => ⟨8, 0x79, 0xFF⟩
  | .f80 => ⟨8, 0x80, 0xFF⟩
  | .f81 => ⟨8, 0x81, 0xFF⟩
  | .f82 => ⟨8, 0x82, 0xFF⟩
  | .f83 => ⟨8, 0x83, 0xFF⟩
  | .f84 => ⟨8, 0x84, 0xFF⟩
  | .f85 => ⟨8, 0x85, 0xFF⟩
  | .f86 => ⟨8, 0x86, 0xFF⟩
  | .f8a => ⟨8, 0x8A, 0xFF⟩
  | .f8b => ⟨8, 0x8B, 0xFF⟩
  | .f9d => ⟨8, 0x9D, 0xFF⟩
  | .fad => ⟨8, 0xAD, 0xFF⟩
  | .fb7 => ⟨8, 0xB7, 0xFF⟩
  | .fb8 => ⟨8, 0xB8, 0xFF⟩
  | .fb9 => ⟨8, 0xB9, 0xFF⟩
  | .fc0 => ⟨8, 0xC0, 0xFF⟩
  | .fdelta => ⟨0, 0x0, 0x0⟩

/-- The bits of an encoding and how many there are, numbered as the table numbers them. -/
def Encoding.bits : Encoding → Nat × Nat
  | .cw w => (52, w.toNat)
  | .tag b => (8, b.toNat)
  | .derived => (0, 0)

/-- The encoding that `nbits` bits `w` stand for in the table's numbering: no bits for FDELTA, a tag byte for the tag
operations, and otherwise a command word whose bits above `nbits` are 0 (log 17). -/
def encodingOfBits (nbits w : Nat) : Option Encoding :=
  if nbits = 0 then
    if w = 0 then some .derived else none
  else if nbits ≤ 8 && w < 256 && (decodeTag (BitVec.ofNat 8 w)).isOk then
    some (.tag (BitVec.ofNat 8 w))
  else if w < 2 ^ 52 then
    some (.cw (BitVec.ofNat 52 w))
  else none

/-- The instruction the decoder reads from bits numbered as spec/opcode_table.json numbers them. -/
def decodeTableWord (nbits w : Nat) : Option Instr :=
  match encodingOfBits nbits w with
  | none => none
  | some e =>
    match decode e with
    | .ok i => some i
    | .error _ => none

end Sys2Proof
end

