-- ==== Sys2Proof/Machine/State.lean ====
section
/-! DEFINITION. The architectural state of the block (10_state.md), as plain data, the reasons a step can stop, and
the state after reset (R46). -/

namespace Sys2Proof.Machine

open Sys2Proof

/-- The response buffer `RXB` as a list of (index, byte) pairs, indices strictly rising, no entry equal to what an
unlisted index reads as (`Memory.wf` in Ops.lean; log 5). -/
abbrev Memory := List Host.Cell

/-- The cause codes of R202; the numbers are in Flags.lean. -/
inductive Cause where
  | ok
  | tagNotFound
  | truncated
  | outOfRange
  | undersized
  | notDecoded
  | emptySource
deriving DecidableEq, Repr

/-- The values of `STATUS.ERR` (R35, R210); codes 4 to 7 are never produced. -/
inductive Err where
  /-- `ERR_NONE`: every performed command. -/
  | none
  /-- `ERR_CMD`: a reserved operation code (R73). -/
  | cmd
  /-- `ERR_RANGE`: an operand outside its source, or `n > BUF_MAX`. -/
  | range
  /-- `ERR_UNINIT`: CSUM or VERIFY on `TXF` before any BUILD. -/
  | uninit
deriving DecidableEq, Repr

/-- `STATUS` (R35) bit by bit; the 16-bit word the host reads is `Status.word` in Flags.lean. Its reserved bits read 0
and nothing writes them, so they are no state (log 13). -/
structure Status where
  /-- Bit 0, `LEN_OK`. -/
  lenOk : Bool
  /-- Bit 1, `A_CUR`. -/
  aCur : Bool
  /-- Bit 2, `A_CAL`. -/
  aCal : Bool
  /-- Bit 3, `A_CELL`. -/
  aCell : Bool
  /-- Bit 4, `VOK`. -/
  vok : Bool
  /-- Bit 5, `TXF_VALID`. -/
  txfValid : Bool
  /-- Bit 6, `DEC_DONE`. -/
  decDone : Bool
  /-- Bits 10:8, `ERR`. -/
  err : Err
deriving DecidableEq, Repr

/-- A field of the reading: the triple (`V_F`, `FS_F`, value registers) of R11, R28, R29. -/
structure FieldReg (α : Type) where
  v : Bool
  fs : Cause
  val : α
deriving DecidableEq, Repr

/-- One entry of `R_CELL` (R25, R30). -/
structure Cell where
  idx : Byte
  mv : U16
deriving DecidableEq, Repr

/-- `R_NCELL` and `R_CELL[0..84]` (R25, R30). -/
structure CellBlock where
  ncell : BitVec 7
  cell : Vector Cell 85
deriving DecidableEq, Repr

/-- `R_WARN` and `R_WSET` (R32). -/
structure Warnings where
  warn : U16
  wset : BitVec 14
deriving DecidableEq, Repr

/-- `R_SWVER[0..14]` and `R_SWBAD` (R31). -/
structure Version where
  bytes : Vector Byte 15
  bad : BitVec 15
deriving DecidableEq, Repr

/-- `R_CALST` and `R_CALRAW` (R33). -/
structure Calibration where
  st : BitVec 2
  raw : Byte
deriving DecidableEq, Repr

/-- The result registers, valid bits and cause codes: the `BmsReading` (R25). -/
structure Reading where
  cells : FieldReg CellBlock
  ttube : FieldReg (BitVec 17)
  tbox : FieldReg (BitVec 17)
  tcell : FieldReg (BitVec 17)
  volt : FieldReg U16
  cur : FieldReg U16
  soc : FieldReg Byte
  ntemp : FieldReg Byte
  nstr : FieldReg U16
  warn : FieldReg Warnings
  bal : FieldReg (BitVec 1)
  calma : FieldReg U16
  swver : FieldReg Version
  calst : FieldReg Calibration
  cap : FieldReg U16
  proto : FieldReg Byte
  delta : FieldReg U16
deriving DecidableEq, Repr

/-- A command as the host presents it: the word on CMD_IN (R40) and the bytes on DATA_IN (R41). -/
structure HostCommand where
  word : BitVec 52
  data : List Byte
deriving DecidableEq, Repr

/-- The state of the block (R20), with the model's own fields `cfg`, `cmdIn`, `dataIn`, `seq`. -/
structure State where
  /-- The implementation parameters (R8), fixed for the machine; nothing writes it (log 4). -/
  cfg : Config
  /-- `RXB`, the response buffer (R21). -/
  rxb : Memory
  /-- `RXLEN` (R22). -/
  rxlen : U16
  /-- `TXF[0..20]`, the request frame (R23). -/
  txf : Vector Byte 21
  /-- `CSR` (R24). -/
  csr : U16
  /-- `R_*`, `V_*`, `FS_*` (R25, R28, R29). -/
  result : Reading
  /-- `STATUS` (R35). -/
  status : Status
  /-- `SP`, the scan pointer (R37). -/
  sp : U16
  /-- `ACC`, the checksum accumulator (R37, R102). -/
  acc : BitVec 32
  /-- The commands the host is still going to issue, the next one first (R40, R248; log 9). -/
  cmdIn : List HostCommand
  /-- DATA_IN during the command being performed (R41); empty between commands (log 10). -/
  dataIn : List Byte
  /-- Field operations handed to the sequencer one by one; empty in every run from reset (R86; log 11). -/
  seq : List FieldId
deriving DecidableEq, Repr

/-- The faults of the block: none. "The block raises no exception, takes no trap and never stops" (R200; log 18). -/
inductive Fault
deriving DecidableEq, Repr

/-- Why a step has no next state. -/
inductive Refusal where
  /-- Raised by an arm of `exec` for an instruction that has no meaning yet; safe. No arm raises it. -/
  | notModelled (mnemonic : String)
  /-- Raised by LOAD when the bytes on DATA_IN are not as many as the count field says, which U13 refuses "at the
  model boundary"; safe (log 10). -/
  | dataInLength
deriving DecidableEq, Repr

/-- A field that is absent with value registers `z` and cause `c`. -/
def FieldReg.absentWith {α : Type} (c : Cause) (z : α) : FieldReg α := ⟨false, c, z⟩

/-- Every field absent with cause `c`, every value register 0: what reset (R46) and the DECODE prologue (R135) leave,
with `c = NOT_DECODED`. -/
def Reading.blank (c : Cause) : Reading where
  cells := .absentWith c ⟨0, Vector.replicate 85 ⟨0, 0⟩⟩
  ttube := .absentWith c 0
  tbox := .absentWith c 0
  tcell := .absentWith c 0
  volt := .absentWith c 0
  cur := .absentWith c 0
  soc := .absentWith c 0
  ntemp := .absentWith c 0
  nstr := .absentWith c 0
  warn := .absentWith c ⟨0, 0⟩
  bal := .absentWith c 0
  calma := .absentWith c 0
  swver := .absentWith c ⟨Vector.replicate 15 0, 0⟩
  calst := .absentWith c ⟨0, 0⟩
  cap := .absentWith c 0
  proto := .absentWith c 0
  delta := .absentWith c 0

/-- The state right after reset (R46, R230). `rxb`, `txf`, `sp`, `acc` are unspecified there: logs 5, 6, 7. -/
def State.reset : State where
  cfg := Config.machine
  rxb := []
  rxlen := 0
  txf := Vector.replicate 21 0
  csr := 0
  result := Reading.blank .notDecoded
  status := ⟨false, false, false, false, false, false, false, .none⟩
  sp := 0
  acc := 0
  cmdIn := []
  dataIn := []
  seq := []

end Sys2Proof.Machine
end

