-- ==== Sys2Proof/Machine/Constants.lean ====
section
/-! DEFINITION. The constants the document fixes (R7) and the derived `MAX_CELLS` (R8). "A model should keep them as named
constants so that a correction is one edit" (N5). -/

namespace Sys2Proof.Machine

/-- `FRAME_LEN`: bytes in the request frame (R7). -/
abbrev frameLen : Nat := 21

/-- `CS_RANGE`: bytes summed for the frame checksum, offsets 0 to 16 (R7, R77). -/
abbrev csRange : Nat := 17

/-- `CS_POS`: offset of the two checksum bytes (R7). -/
abbrev csPos : Nat := 19

/-- `MIN_LEN`: DECODE proceeds only if `RXLEN > 38` (R7, R131). -/
abbrev minLen : Nat := 38

/-- `N_TAGS`: rows of the tag table (R7). -/
abbrev nTags : Nat := 16

/-- `VER_LEN`: payload bytes of the software-version field (R7). -/
abbrev verLen : Nat := 15

/-- `TEMP_ZERO`: zero-crossing offset of the temperature encoding (R7). -/
abbrev tempZero : Nat := 100

/-- `CUR_LOW_MAX`: top of the low current range (R7). -/
abbrev curLowMax : Nat := 10000

/-- `CUR_HIGH_MIN`: bottom of the high current range (R7). -/
abbrev curHighMin : Nat := 32768

/-- `N_WARN`: named warning bits (R7). -/
abbrev nWarn : Nat := 14

/-- `MAX_CELLS`: the most groups a cell block can hold (R8). -/
abbrev maxCells : Nat := 85

end Sys2Proof.Machine
end

