-- ==== Sys2Proof/Machine/Ops.lean ====
section
/-! DEFINITION. The named operations over the response buffer, the result fields and STATUS, and the way a command
reaches the block. There is no exception entry and no return in this block (R200, R211, R212): a soft failure is
`FieldReg.absent`, a refused command is `refuse`. -/

namespace Sys2Proof.Machine

/-! ### The response buffer (20_memory.md) -/

/-- What an index of `RXB` that no LOAD has written reads as. DESIGN CHOICE, log 5 (unsafe): R46 leaves it
unspecified; no command reads one in a run from reset. -/
def unwritten : Byte := 0

/-- One byte of `RXB` (R21, R52). -/
def Memory.read : Memory → Nat → Byte
  | [], _ => unwritten
  | (a, v) :: m, i => if a = i then v else Memory.read m i

/-- Write one byte of `RXB` (R53), keeping the canonical form. -/
def Memory.write : Memory → Nat → Byte → Memory
  | [], i, v => if v = unwritten then [] else [(i, v)]
  | (a, w) :: m, i, v =>
    if i < a then
      if v = unwritten then (a, w) :: m else (i, v) :: (a, w) :: m
    else if i = a then
      if v = unwritten then m else (a, v) :: m
    else (a, w) :: Memory.write m i v

/-- `MemWrite` (R53): consecutive bytes from index `i` on. -/
def Memory.writeBytes : Memory → Nat → List Byte → Memory
  | m, _, [] => m
  | m, i, d :: ds => Memory.writeBytes (Memory.write m i d) (i + 1) ds

/-- `MemRead(addr, n)` (R52): the `n` bytes from `addr` on, first byte first. Every caller has checked `addr + n ≤ RXLEN`. -/
def Memory.readBytes (m : Memory) (addr n : Nat) : List Byte :=
  (List.range' addr n).map (Memory.read m)

/-- The canonical form: indices strictly rising, no entry that reads as an unlisted index does. -/
abbrev Memory.wf (m : Memory) : Prop :=
  List.Pairwise (fun x y => x.1 < y.1) m ∧ ∀ c ∈ m, c.2 ≠ unwritten

/-! ### The tag search and the extraction protocol (42_decode_control.md) -/

/-- The loop of R132: at most `n` more bytes are compared, the next one at `i`. -/
def findFrom (m : Memory) (t : Byte) : Nat → Nat → Option Nat
  | 0, _ => none
  | n + 1, i => if Memory.read m i = t then some i else findFrom m t n (i + 1)

/-- `find(t)` (R132): the least index below `len` whose byte is `t`. -/
def find (m : Memory) (len : Nat) (t : Byte) : Option Nat := findFrom m t len 0

/-- `extract(t, k)` (R133, R134): the `k` payload bytes after the first occurrence of `t`, or the cause of failure. -/
def extract (m : Memory) (len : Nat) (t : Byte) (k : Nat) : Except Cause (List Byte) :=
  match find m len t with
  | none => .error .tagNotFound
  | some p => if p + k ≥ len then .error .truncated else .ok (Memory.readBytes m (p + 1) k)

/-- Where the search for `t` leaves the scan pointer (R132): at the tag, or at `RXLEN` (log 8). -/
def spAfter (m : Memory) (len : U16) (t : Byte) : U16 :=
  match find m len.toNat t with
  | some p => BitVec.ofNat 16 p
  | none => len

/-! ### Present and absent fields (R10) -/

/-- `present(F, v)` (R10): `V_F <- 1`, `FS_F <- OK`, the value register `<- v`. -/
def FieldReg.present {α : Type} (v : α) : FieldReg α := ⟨true, .ok, v⟩

/-- `absent(F, cause)` (R10): `V_F <- 0`, `FS_F <- cause`, the value registers left as they are (log 19). -/
def FieldReg.absent {α : Type} (c : Cause) (f : FieldReg α) : FieldReg α := ⟨false, c, f.val⟩

/-- A field written from the outcome of an extraction. -/
def FieldReg.settle {α : Type} (f : FieldReg α) : Except Cause α → FieldReg α
  | .error c => f.absent c
  | .ok v => .present v

/-- `absent(F, cause)` for every field id (R131, R206). -/
def Reading.absentAll (c : Cause) (r : Reading) : Reading where
  cells := r.cells.absent c
  ttube := r.ttube.absent c
  tbox := r.tbox.absent c
  tcell := r.tcell.absent c
  volt := r.volt.absent c
  cur := r.cur.absent c
  soc := r.soc.absent c
  ntemp := r.ntemp.absent c
  nstr := r.nstr.absent c
  warn := r.warn.absent c
  bal := r.bal.absent c
  calma := r.calma.absent c
  swver := r.swver.absent c
  calst := r.calst.absent c
  cap := r.cap.absent c
  proto := r.proto.absent c
  delta := r.delta.absent c

/-- `V_F` (R28). -/
def Reading.valid (r : Reading) : FieldId → Bool
  | .cells => r.cells.v
  | .ttube => r.ttube.v
  | .tbox => r.tbox.v
  | .tcell => r.tcell.v
  | .volt => r.volt.v
  | .cur => r.cur.v
  | .soc => r.soc.v
  | .ntemp => r.ntemp.v
  | .nstr => r.nstr.v
  | .warn => r.warn.v
  | .bal => r.bal.v
  | .calma => r.calma.v
  | .swver => r.swver.v
  | .calst => r.calst.v
  | .cap => r.cap.v
  | .proto => r.proto.v
  | .delta => r.delta.v

/-- `FS_F` (R29). -/
def Reading.cause (r : Reading) : FieldId → Cause
  | .cells => r.cells.fs
  | .ttube => r.ttube.fs
  | .tbox => r.tbox.fs
  | .tcell => r.tcell.fs
  | .volt => r.volt.fs
  | .cur => r.cur.fs
  | .soc => r.soc.fs
  | .ntemp => r.ntemp.fs
  | .nstr => r.nstr.fs
  | .warn => r.warn.fs
  | .bal => r.bal.fs
  | .calma => r.calma.fs
  | .swver => r.swver.fs
  | .calst => r.calst.fs
  | .cap => r.cap.fs
  | .proto => r.proto.fs
  | .delta => r.delta.fs

/-! ### Refused and performed commands (R210) -/

/-- `STATUS.ERR <- err`. -/
def State.setErr (e : Err) (s : State) : State := { s with status.err := e }

/-- `refuse(err)` (R10, R210): `STATUS.ERR <- err`, nothing else changes, and the block goes on. -/
def refuse (e : Err) (s : State) : Host.Outcome State Fault Refusal := .next (s.setErr e)

/-! ### How an instruction reaches the block (R40, R41; logs 9, 10, 11, 16) -/

/-- The field operation of a field id (R25, R131). -/
def opOf : FieldId → Instr
  | .cells => .f79
  | .ttube => .f80
  | .tbox => .f81
  | .tcell => .f82
  | .volt => .f83
  | .cur => .f84
  | .soc => .f85
  | .ntemp => .f86
  | .nstr => .f8a
  | .warn => .f8b
  | .bal => .f9d
  | .calma => .fad
  | .swver => .fb7
  | .calst => .fb8
  | .cap => .fb9
  | .proto => .fc0
  | .delta => .fdelta

/-- The field id a field operation writes; none for a command. -/
def fieldOf : Instr → Option FieldId
  | .f79 => some .cells
  | .f80 => some .ttube
  | .f81 => some .tbox
  | .f82 => some .tcell
  | .f83 => some .volt
  | .f84 => some .cur
  | .f85 => some .soc
  | .f86 => some .ntemp
  | .f8a => some .nstr
  | .f8b => some .warn
  | .f9d => some .bal
  | .fad => some .calma
  | .fb7 => some .swver
  | .fb8 => some .calst
  | .fb9 => some .cap
  | .fc0 => some .proto
  | .fdelta => some .delta
  | .load _ => none
  | .build => none
  | .csum _ _ _ => none
  | .verify _ _ _ _ => none
  | .decode => none
  | .reserved5 => none
  | .reserved6 => none
  | .reserved7 => none
  | .chkframe => none
  | .csumall _ => none

/-- The host's next command is taken from CMD_IN, its bytes standing on DATA_IN (R40, R41). -/
def State.accept (c : HostCommand) (rest : List HostCommand) (s : State) : State :=
  { s with cmdIn := rest, dataIn := c.data }

/-- The command is over: nothing stands on DATA_IN any more (R36, R41). -/
def State.release (s : State) : State := { s with dataIn := [] }

/-- The end of a command: the ports are released if it was performed or refused by the block. -/
def endCommand : Host.Outcome State Fault Refusal → Host.Outcome State Fault Refusal
  | .next t => .next t.release
  | .fault r => .fault r
  | .refused r => .refused r

/-- The field operation at the head of the sequencer's list is taken (R38). -/
def State.takeOp (rest : List FieldId) (s : State) : State := { s with seq := rest }

/-- The host puts a command in front of those it is going to issue. A LOAD comes with as many bytes on DATA_IN as its
count field says, here all 0x00 (R41). -/
def State.presentWord (w : BitVec 52) (s : State) : State :=
  { s with
    seq := []
    cmdIn := ⟨w, if cwOp w = 0 then List.replicate (cwA w).toNat 0 else []⟩ :: s.cmdIn }

/-- A field operation put in front of the sequencer's list (log 11). -/
def State.presentOp (f : FieldId) (s : State) : State := { s with seq := f :: s.seq }

/-- The instruction of `nbits` bits `w` placed where the next step takes its instruction (log 16). -/
def State.presentBits (s : State) (nbits w : Nat) : State :=
  match decodeTableWord nbits w with
  | none => s
  | some i =>
    match fieldOf i with
    | some f => s.presentOp f
    | none => s.presentWord (BitVec.ofNat 52 w)

end Sys2Proof.Machine
end

