-- ==== Sys2Proof/Machine/Operands.lean ====
section
/-! DEFINITION. Operand forms: the byte sources of CSUM and VERIFY, byte order, and the raw values of response entries
(R55, R78, R79, R106, R150). -/

namespace Sys2Proof.Machine

/-! ### Byte order (R55) -/

/-- `be16(h, l)` = `(h << 8) | l` (R10). -/
def be16 (h l : Byte) : U16 := h ++ l

/-- The byte sent or stored first, `v[15:8]` (R101). -/
def hiByte (v : U16) : Byte := v.extractLsb' 8 8

/-- The byte sent or stored second, `v[7:0]` (R101). -/
def loByte (v : U16) : Byte := v.extractLsb' 0 8

/-- A number as `n` bytes, most significant first (R55). -/
def beBytes : Nat → Nat → List Byte
  | 0, _ => []
  | n + 1, v => BitVec.ofNat 8 (v / 256 ^ n) :: beBytes n v

/-! ### The byte sources of CSUM and VERIFY (R71, R106) -/

/-- `LEN(sel)` (R106). -/
def srcLen (s : State) : Source → Nat
  | .txf => frameLen
  | .rxb => s.rxlen.toNat

/-- `SRC(sel)[i]` (R106); the commands check the index first. -/
def srcByte (s : State) : Source → Nat → Byte
  | .txf, i => s.txf.toList.getD i 0
  | .rxb, i => Memory.read s.rxb i

/-- The bytes of a source at the indices of the half-open range `[a, b)` (R9). -/
def srcRange (s : State) (sel : Source) (a b : Nat) : List Byte :=
  (List.range' a (b - a)).map (srcByte s sel)

/-- The two bytes stored at index `c`, the high one first (R101). -/
def storedChecksum (s : State) (sel : Source) (c : Nat) : U16 :=
  be16 (srcByte s sel c) (srcByte s sel (c + 1))

/-- `sel = 0` while `STATUS.TXF_VALID = 0`: the source is not initialised (R106, R107). -/
def srcUninit (s : State) (sel : Source) : Bool := sel == .txf && !s.status.txfValid

/-- `a ≤ b` and `b ≤ LEN(sel)` (R106). -/
def rangeOk (s : State) (sel : Source) (a b : U16) : Bool :=
  a.toNat ≤ b.toNat && b.toNat ≤ srcLen s sel

/-- `c + 2 ≤ LEN(sel)` (R107). -/
def storedOk (s : State) (sel : Source) (c : U16) : Bool := c.toNat + 2 ≤ srcLen s sel

/-! ### Raw values of response entries (R78, R79, R150) -/

/-- `get1(t)`: format `T1`, one payload byte (R150). -/
def get1 (m : Memory) (len : Nat) (t : Byte) : Except Cause Byte :=
  match extract m len t 1 with
  | .error c => .error c
  | .ok r => .ok (r.getD 0 0)

/-- `get2(t)`: format `T2`, two payload bytes, high byte first (R150). -/
def get2 (m : Memory) (len : Nat) (t : Byte) : Except Cause U16 :=
  match extract m len t 2 with
  | .error c => .error c
  | .ok r => .ok (be16 (r.getD 0 0) (r.getD 1 0))

/-- Group `j` of a cell block whose tag is at `p` (R81, R182). -/
def cellGroup (m : Memory) (p j : Nat) : Cell where
  idx := Memory.read m (p + 2 + 3 * j)
  mv := be16 (Memory.read m (p + 3 + 3 * j)) (Memory.read m (p + 4 + 3 * j))

/-- `sext_N` of a signed register, as an integer (R10, R27). -/
def signedValue {n : Nat} (r : BitVec n) : Int := r.toInt

end Sys2Proof.Machine
end

