-- ==== Sys2Proof/Machine/Flags.lean ====
section
/-! DEFINITION. The codes of STATUS and of the causes, and the flag computations: which bits a command or a field
operation writes (R35, R202, R205). -/

namespace Sys2Proof.Machine

/-- The three bits of `STATUS.ERR` (R35, R210). -/
def Err.code : Err → BitVec 3
  | .none => 0
  | .cmd => 1
  | .range => 2
  | .uninit => 3

/-- The three bits of `FS_F` (R202). -/
def Cause.code : Cause → BitVec 3
  | .ok => 0
  | .tagNotFound => 1
  | .truncated => 2
  | .outOfRange => 3
  | .undersized => 4
  | .notDecoded => 5
  | .emptySource => 6

/-- `STATUS` as the 16-bit word the host reads (R35); bits 7 and 15:11 read 0. -/
def Status.word (s : Status) : U16 :=
  (0 : BitVec 5) ++ s.err.code ++ (0 : BitVec 1) ++ BitVec.ofBool s.decDone ++ BitVec.ofBool s.txfValid ++
    BitVec.ofBool s.vok ++ BitVec.ofBool s.aCell ++ BitVec.ofBool s.aCal ++ BitVec.ofBool s.aCur ++
    BitVec.ofBool s.lenOk

/-- The anomaly bits cleared, as the DECODE prologue does (R135, R205). -/
def Status.clearAnomalies (s : Status) : Status := { s with aCur := false, aCal := false, aCell := false }

/-- `STATUS.VOK <- 1 if CSR = be16(SRC(sel)[c], SRC(sel)[c+1]) else 0` (R107). -/
def verifyOk (s : State) (sel : Source) (c : Nat) : Bool := s.csr == storedChecksum s sel c

/-- `A_CUR` is set by a current raw value in the dead zone (R157, R205). -/
def inDeadZone (raw : U16) : Bool := curLowMax < raw.toNat && raw.toNat < curHighMin

/-- `A_CAL` is set by a calibration byte other than 0 or 1 (R165, R205). -/
def calUnknown (raw : Byte) : Bool := raw != 0 && raw != 1

/-- `A_CELL` is set by a cell-block length that is not a multiple of 3 (R183, R205). -/
def badCellLength (l : Nat) : Bool := l % 3 != 0

/-- `R_SWBAD`: bit `i` is 1 exactly when byte `i` is 0x80 or above (R31). -/
def badMask : List Byte → Nat
  | [] => 0
  | d :: ds => (if d.toNat ≥ 0x80 then 1 else 0) + 2 * badMask ds

end Sys2Proof.Machine
end

