-- ==== Sys2Proof/Machine/ChecksumUnit.lean ====
section
/-! DEFINITION. The checksum unit (40_checksum.md): the checksum function, the reduction tree, and the commands CSUM,
VERIFY, CHKFRAME and CSUMALL. -/

namespace Sys2Proof.Machine

/-- `checksum(s)` (R100): the sum of the bytes as unsigned integers, modulo 65536. -/
def checksum (l : List Byte) : U16 := BitVec.ofNat 16 (l.map BitVec.toNat).sum

/-- The accumulator after a pass over the bytes (R102, R106): set to 0, then `ACC <- ACC + zext_32(byte)` for each. -/
def accSum (l : List Byte) : BitVec 32 := l.foldl (fun acc x => acc + x.setWidth 32) 0

/-! ### The reduction tree (R103) -/

/-- One level of adders: neighbouring nodes are added, no carry lost. -/
def treeLevel : List Nat → List Nat
  | x :: y :: rest => (x + y) :: treeLevel rest
  | [x] => [x]
  | [] => []

/-- Level `j` of the tree over the given leaves. -/
def treeLevels : Nat → List Nat → List Nat
  | 0, l => l
  | j + 1, l => treeLevel (treeLevels j l)

/-- The leaves of one pass: the bytes, filled up with 0 to `2 ^ k` of them. -/
def treeLeaves (k : Nat) (chunk : List Byte) : List Nat :=
  chunk.map BitVec.toNat ++ List.replicate (2 ^ k - chunk.length) 0

/-- `pass_sum` of one chunk of at most `2 ^ k` bytes. -/
def passSum (k : Nat) (chunk : List Byte) : Nat := (treeLevels k (treeLeaves k chunk)).headD 0

/-- The passes over consecutive chunks of `TREE_W = 2 ^ k` bytes, each added into `ACC`; `n` bounds their number. -/
def treePasses (k : Nat) : Nat → BitVec 32 → List Byte → BitVec 32
  | 0, acc, _ => acc
  | _, acc, [] => acc
  | n + 1, acc, b :: bs =>
    treePasses k n (acc + BitVec.ofNat 32 (passSum k ((b :: bs).take (2 ^ k)))) ((b :: bs).drop (2 ^ k))

/-- The checksum as the unit with `TREE_W = 2 ^ k` leaves computes it: `ACC[15:0]` after the last pass. -/
def treeChecksum (k : Nat) (l : List Byte) : U16 := (treePasses k l.length 0 l).setWidth 16

/-! ### CSUM and VERIFY -/

/-- `ACC <- 0; for i in a .. b-1: ACC <- ACC + zext_32(SRC(sel)[i]); CSR <- ACC[15:0]` (R106). -/
def State.sumInto (sel : Source) (a b : U16) (s : State) : State :=
  let acc := accSum (srcRange s sel a.toNat b.toNat)
  { s with acc := acc, csr := acc.setWidth 16 }

/-- CSUM's checks in order, then its effect (R106). -/
def runCsum (sel : Source) (a b : U16) (s : State) : Host.Outcome State Fault Refusal :=
  if srcUninit s sel then refuse .uninit s
  else if rangeOk s sel a b then .next ((s.sumInto sel a b).setErr .none)
  else refuse .range s

/-- `STATUS.VOK` written from the comparison with the stored bytes (R107). -/
def State.setVok (sel : Source) (c : U16) (s : State) : State :=
  { s with status.vok := verifyOk s sel c.toNat }

/-- VERIFY's checks in order, then its effect (R107). -/
def runVerify (sel : Source) (a b c : U16) (s : State) : Host.Outcome State Fault Refusal :=
  if srcUninit s sel then refuse .uninit s
  else if rangeOk s sel a b && storedOk s sel c then
    .next (((s.sumInto sel a b).setVok sel c).setErr .none)
  else refuse .range s

/-- `CSUM sel, a, b` (R106). -/
def execCsum (sel : Source) (a b : U16) (s : State) : Host.Outcome State Fault Refusal := runCsum sel a b s

/-- `VERIFY sel, a, b, c` (R107). -/
def execVerify (sel : Source) (a b c : U16) (s : State) : Host.Outcome State Fault Refusal := runVerify sel a b c s

/-- `CHKFRAME` (R86): `VERIFY TXF, 0, 17, 19`. -/
def execChkframe (s : State) : Host.Outcome State Fault Refusal := runVerify .txf 0 17 19 s

/-- `CSUMALL` (R86): `CSUM RXB, 0, b`. -/
def execCsumall (b : U16) (s : State) : Host.Outcome State Fault Refusal := runCsum .rxb 0 b s

end Sys2Proof.Machine
end

