-- ==== Sys2Proof/Machine/FieldsFixed.lean ====
section
/-! DEFINITION. The field operations with 1-byte and 2-byte payloads (43_fields_fixed.md), in tag order. Each reads only
`RXB` and `RXLEN` and writes its own field, `SP` and at most its own anomaly bit (R136). -/

namespace Sys2Proof.Machine

/-- The value `tempdec` gives at raw 100 (R151, U9). -/
def tempAt100Value : TempAt100 → Int
  | .hundred => 100
  | .zero => 0

/-- Temperature decode (R151), °C. -/
def tempdec (at100 : TempAt100) (raw : U16) : Int :=
  if raw.toNat = tempZero then tempAt100Value at100
  else if raw.toNat ≤ tempZero then raw.toNat
  else -((raw.toNat : Int) - tempZero)

/-- Current decode (R155), centiamps; `none` is `DEAD_ZONE`. The low branch is kept as the document writes it. -/
def curdec (raw : U16) : Option Int :=
  if raw.toNat ≤ curLowMax then some (-(((curLowMax : Int) - raw.toNat) - curLowMax))
  else if raw.toNat ≥ curHighMin then some ((raw.toNat : Int) - curHighMin)
  else none

/-- A temperature field's value register, s17, from its two bytes. -/
def tempField (s : State) (t : Byte) : Except Cause (BitVec 17) :=
  match get2 s.rxb s.rxlen.toNat t with
  | .error c => .error c
  | .ok r => .ok (BitVec.ofInt 17 (tempdec s.cfg.tempAt100 r))

/-- F80 (R152). -/
def runF80 (s : State) : State :=
  { s with
    sp := spAfter s.rxb s.rxlen 0x80
    result.ttube := s.result.ttube.settle (tempField s 0x80) }

/-- F81 (R153). -/
def runF81 (s : State) : State :=
  { s with
    sp := spAfter s.rxb s.rxlen 0x81
    result.tbox := s.result.tbox.settle (tempField s 0x81) }

/-- F82 (R154). -/
def runF82 (s : State) : State :=
  { s with
    sp := spAfter s.rxb s.rxlen 0x82
    result.tcell := s.result.tcell.settle (tempField s 0x82) }

/-- F83 (R156). -/
def runF83 (s : State) : State :=
  { s with
    sp := spAfter s.rxb s.rxlen 0x83
    result.volt := s.result.volt.settle (get2 s.rxb s.rxlen.toNat 0x83) }

/-- The outcome of the current field: a value, or a cause (R157). -/
def currentField (s : State) : Except Cause U16 :=
  match get2 s.rxb s.rxlen.toNat 0x84 with
  | .error c => .error c
  | .ok r =>
    match curdec r with
    | none => .error .outOfRange
    | some v => .ok (BitVec.ofInt 16 v)

/-- Whether F84 finds the raw value in the dead zone (R157, R205). -/
def currentAnomaly (s : State) : Bool :=
  match get2 s.rxb s.rxlen.toNat 0x84 with
  | .error _ => false
  | .ok r => inDeadZone r

/-- F84 (R157): `A_CUR` is set in the dead zone and otherwise left as it is. -/
def runF84 (s : State) : State :=
  { s with
    sp := spAfter s.rxb s.rxlen 0x84
    result.cur := s.result.cur.settle (currentField s)
    status.aCur := s.status.aCur || currentAnomaly s }

/-- F85 (R158): the byte passes through, also above 100. -/
def runF85 (s : State) : State :=
  { s with
    sp := spAfter s.rxb s.rxlen 0x85
    result.soc := s.result.soc.settle (get1 s.rxb s.rxlen.toNat 0x85) }

/-- F86 (R159). -/
def runF86 (s : State) : State :=
  { s with
    sp := spAfter s.rxb s.rxlen 0x86
    result.ntemp := s.result.ntemp.settle (get1 s.rxb s.rxlen.toNat 0x86) }

/-- F8A (R161). -/
def runF8a (s : State) : State :=
  { s with
    sp := spAfter s.rxb s.rxlen 0x8A
    result.nstr := s.result.nstr.settle (get2 s.rxb s.rxlen.toNat 0x8A) }

/-- `R_WARN` and `R_WSET = R_WARN[13:0]` (R32, R162). -/
def warningsOf (raw : U16) : Warnings := ⟨raw, raw.setWidth 14⟩

/-- The warning field's value registers from its two bytes. -/
def warnField (s : State) : Except Cause Warnings :=
  match get2 s.rxb s.rxlen.toNat 0x8B with
  | .error c => .error c
  | .ok r => .ok (warningsOf r)

/-- F8B (R162). -/
def runF8b (s : State) : State :=
  { s with
    sp := spAfter s.rxb s.rxlen 0x8B
    result.warn := s.result.warn.settle (warnField s) }

/-- `1 if r = 1 else 0` (R163). -/
def balanceOf (raw : Byte) : BitVec 1 := if raw = 1 then 1 else 0

/-- The balance field's value register from its byte. -/
def balField (s : State) : Except Cause (BitVec 1) :=
  match get1 s.rxb s.rxlen.toNat 0x9D with
  | .error c => .error c
  | .ok r => .ok (balanceOf r)

/-- F9D (R163). -/
def runF9d (s : State) : State :=
  { s with
    sp := spAfter s.rxb s.rxlen 0x9D
    result.bal := s.result.bal.settle (balField s) }

/-- FAD (R164). -/
def runFad (s : State) : State :=
  { s with
    sp := spAfter s.rxb s.rxlen 0xAD
    result.calma := s.result.calma.settle (get2 s.rxb s.rxlen.toNat 0xAD) }

/-- 1 active, 0 inactive, 2 unknown, with the raw byte kept (R165). -/
def calibrationOf (raw : Byte) : Calibration :=
  ⟨if raw = 1 then 1 else if raw = 0 then 0 else 2, raw⟩

/-- The calibration field's value registers from its byte. -/
def calField (s : State) : Except Cause Calibration :=
  match get1 s.rxb s.rxlen.toNat 0xB8 with
  | .error c => .error c
  | .ok r => .ok (calibrationOf r)

/-- Whether FB8 finds a byte other than 0 or 1 (R165, R205). -/
def calAnomaly (s : State) : Bool :=
  match get1 s.rxb s.rxlen.toNat 0xB8 with
  | .error _ => false
  | .ok r => calUnknown r

/-- FB8 (R165): `A_CAL` is set for the unknown state and otherwise left as it is. -/
def runFb8 (s : State) : State :=
  { s with
    sp := spAfter s.rxb s.rxlen 0xB8
    result.calst := s.result.calst.settle (calField s)
    status.aCal := s.status.aCal || calAnomaly s }

/-- FB9 (R166). -/
def runFb9 (s : State) : State :=
  { s with
    sp := spAfter s.rxb s.rxlen 0xB9
    result.cap := s.result.cap.settle (get2 s.rxb s.rxlen.toNat 0xB9) }

/-- FC0 (R167). -/
def runFc0 (s : State) : State :=
  { s with
    sp := spAfter s.rxb s.rxlen 0xC0
    result.proto := s.result.proto.settle (get1 s.rxb s.rxlen.toNat 0xC0) }

/-- Power-tube temperature (R152). -/
def execF80 (s : State) : Host.Outcome State Fault Refusal := .next (runF80 s)

/-- Battery-box temperature (R153). -/
def execF81 (s : State) : Host.Outcome State Fault Refusal := .next (runF81 s)

/-- Battery-cell temperature (R154). -/
def execF82 (s : State) : Host.Outcome State Fault Refusal := .next (runF82 s)

/-- Total voltage (R156). -/
def execF83 (s : State) : Host.Outcome State Fault Refusal := .next (runF83 s)

/-- Current (R157). -/
def execF84 (s : State) : Host.Outcome State Fault Refusal := .next (runF84 s)

/-- State of charge (R158). -/
def execF85 (s : State) : Host.Outcome State Fault Refusal := .next (runF85 s)

/-- Temperature sensor count (R159). -/
def execF86 (s : State) : Host.Outcome State Fault Refusal := .next (runF86 s)

/-- Battery string count (R161). -/
def execF8a (s : State) : Host.Outcome State Fault Refusal := .next (runF8a s)

/-- Warning flags (R162). -/
def execF8b (s : State) : Host.Outcome State Fault Refusal := .next (runF8b s)

/-- Active balance switch (R163). -/
def execF9d (s : State) : Host.Outcome State Fault Refusal := .next (runF9d s)

/-- Current calibration (R164). -/
def execFad (s : State) : Host.Outcome State Fault Refusal := .next (runFad s)

/-- Calibration active flag (R165). -/
def execFb8 (s : State) : Host.Outcome State Fault Refusal := .next (runFb8 s)

/-- Actual capacity (R166). -/
def execFb9 (s : State) : Host.Outcome State Fault Refusal := .next (runFb9 s)

/-- Protocol version (R167). -/
def execFc0 (s : State) : Host.Outcome State Fault Refusal := .next (runFc0 s)

end Sys2Proof.Machine
end

