-- ==== Sys2Proof/Machine/FieldsVariable.lean ====
section
/-! DEFINITION. Cell voltages F79, software version FB7 and the derived delta voltage FDELTA (44_fields_variable.md). -/

namespace Sys2Proof.Machine

/-- The cell registers with the first `n` groups of the block at `p` stored; later entries keep what they held (R181;
log 20). -/
def storeCells (m : Memory) (p n : Nat) (old : CellBlock) : CellBlock where
  ncell := BitVec.ofNat 7 n
  cell := Vector.ofFn fun j => if j.val < n then cellGroup m p j.val else old.cell[j]

/-- The outcome of the cell field, given what the registers held before (R181, R183). -/
def cellsField (s : State) : Except Cause CellBlock :=
  match find s.rxb s.rxlen.toNat 0x79 with
  | none => .error .tagNotFound
  | some p =>
    if p + 1 ≥ s.rxlen.toNat then .error .truncated
    else
      let l := (Memory.read s.rxb (p + 1)).toNat
      if p + 1 + l ≥ s.rxlen.toNat then .error .truncated
      else if badCellLength l && !s.cfg.cellPartial then .error .outOfRange
      else .ok (storeCells s.rxb p (l / 3) s.result.cells.val)

/-- Whether F79 finds a complete block whose length is not a multiple of 3 (R183, R205, R209). -/
def cellsAnomaly (s : State) : Bool :=
  match find s.rxb s.rxlen.toNat 0x79 with
  | none => false
  | some p =>
    if p + 1 ≥ s.rxlen.toNat then false
    else
      let l := (Memory.read s.rxb (p + 1)).toNat
      if p + 1 + l ≥ s.rxlen.toNat then false else badCellLength l

/-- F79 (R181): `A_CELL` is set for a bad length and otherwise left as it is. -/
def runF79 (s : State) : State :=
  { s with
    sp := spAfter s.rxb s.rxlen 0x79
    result.cells := s.result.cells.settle (cellsField s)
    status.aCell := s.status.aCell || cellsAnomaly s }

/-- `R_SWVER` and `R_SWBAD` from the fifteen payload bytes (R31, R185). -/
def versionOf (r : List Byte) : Version where
  bytes := Vector.ofFn fun i => r.getD i.val 0
  bad := BitVec.ofNat 15 (badMask r)

/-- The version field's value registers. -/
def versionField (s : State) : Except Cause Version :=
  match extract s.rxb s.rxlen.toNat 0xB7 verLen with
  | .error c => .error c
  | .ok r => .ok (versionOf r)

/-- FB7 (R185). -/
def runFb7 (s : State) : State :=
  { s with
    sp := spAfter s.rxb s.rxlen 0xB7
    result.swver := s.result.swver.settle (versionField s) }

/-- The millivolts of the decoded cells, `R_CELL[0 .. R_NCELL-1].MV` (R186; log 26). -/
def decodedMv (r : Reading) : List Nat :=
  (r.cells.val.cell.toList.take r.cells.val.ncell.toNat).map fun c => c.mv.toNat

/-- `mx - mn` of a list of millivolts (R186). -/
def spread (mvs : List Nat) : Nat := mvs.foldl max 0 - mvs.foldl min 65535

/-- The outcome of the delta voltage (R186). -/
def deltaField (r : Reading) : Except Cause U16 :=
  if r.cells.v && r.cells.val.ncell != 0 then .ok (BitVec.ofNat 16 (spread (decodedMv r)))
  else .error .emptySource

/-- FDELTA (R186): reads what F79 left, makes no search. -/
def runFdelta (s : State) : State :=
  { s with result.delta := s.result.delta.settle (deltaField s.result) }

/-- Cell voltages (R181). -/
def execF79 (s : State) : Host.Outcome State Fault Refusal := .next (runF79 s)

/-- Software version (R185). -/
def execFb7 (s : State) : Host.Outcome State Fault Refusal := .next (runFb7 s)

/-- Delta voltage (R186). -/
def execFdelta (s : State) : Host.Outcome State Fault Refusal := .next (runFdelta s)

end Sys2Proof.Machine
end

