-- ==== Sys2Proof/Machine/DecodeControl.lean ====
section
/-! DEFINITION. The command DECODE (42_decode_control.md): prologue, length guard, order of the field operations. -/

namespace Sys2Proof.Machine

/-- The effect of the field operation of a field id. -/
def runField : FieldId → State → State
  | .cells, s => runF79 s
  | .ttube, s => runF80 s
  | .tbox, s => runF81 s
  | .tcell, s => runF82 s
  | .volt, s => runF83 s
  | .cur, s => runF84 s
  | .soc, s => runF85 s
  | .ntemp, s => runF86 s
  | .nstr, s => runF8a s
  | .warn, s => runF8b s
  | .bal, s => runF9d s
  | .calma, s => runFad s
  | .swver, s => runFb7 s
  | .calst, s => runFb8 s
  | .cap, s => runFb9 s
  | .proto, s => runFc0 s
  | .delta, s => runFdelta s

/-- The sixteen tag operations in ascending tag order (R131, R136). -/
def tagOps : List FieldId :=
  [.cells, .ttube, .tbox, .tcell, .volt, .cur, .soc, .ntemp, .nstr, .warn, .bal, .calma, .swver, .calst, .cap, .proto]

/-- The order in which DECODE runs the field operations: the tags, then FDELTA (R136). -/
def decodeOrder : List FieldId := tagOps ++ [.delta]

/-- Field operations run one after the other. -/
def runFields (fs : List FieldId) (s : State) : State := fs.foldl (fun s f => runField f s) s

/-- `prologue()` (R135). -/
def prologue (s : State) : State :=
  { s with result := Reading.blank .notDecoded, status := s.status.clearAnomalies }

/-- `STATUS.LEN_OK <- b` (R131). -/
def State.setLenOk (b : Bool) (s : State) : State := { s with status.lenOk := b }

/-- `STATUS.DEC_DONE <- 1; STATUS.ERR <- ERR_NONE` (R131). -/
def State.finishDecode (s : State) : State := { s with status.decDone := true, status.err := .none }

/-- Every field absent with cause UNDERSIZED (R131, R206). -/
def State.absentAll (s : State) : State := { s with result := s.result.absentAll .undersized }

/-- DECODE's effect (R131). -/
def runDecode (s : State) : State :=
  let s0 := prologue s
  if s.rxlen.toNat > minLen then (runFields decodeOrder (s0.setLenOk true)).finishDecode
  else (s0.setLenOk false).absentAll.finishDecode

/-- `DECODE` (R131): never refused, always completes (R130). -/
def execDecode (s : State) : Host.Outcome State Fault Refusal := .next (runDecode s)

end Sys2Proof.Machine
end

