-- ==== Sys2Proof/Machine/FrameBuilder.lean ====
section
/-! DEFINITION. The frame builder (41_frame_builder.md): the request frame `RQ` (R75) and the command BUILD (R121). -/

namespace Sys2Proof.Machine

/-- A field of the request frame with a fixed value (R75). -/
structure FrameField where
  offset : Nat
  len : Nat
  value : Nat
deriving DecidableEq, Repr

/-- The table of R75, the ten rows before the checksum: marker, length, device address, command code, source
identifier, transaction type, info flag, record number, end flag, reserved. -/
def frameFields : List FrameField :=
  [⟨0, 2, 0x4E57⟩, ⟨2, 2, 0x0013⟩, ⟨4, 4, 0x00000000⟩, ⟨8, 1, 0x06⟩, ⟨9, 1, 0x03⟩, ⟨10, 1, 0x00⟩, ⟨11, 1, 0x00⟩,
    ⟨12, 4, 0x00000000⟩, ⟨16, 1, 0x68⟩, ⟨17, 2, 0x0000⟩]

/-- `TXF[0..18]`: the fixed fields, most significant byte first (R55, R75). -/
def frameHeader : List Byte := frameFields.flatMap fun f => beBytes f.len f.value

/-- The sum BUILD takes over the bytes it has just written, offsets 0 to 16 (R121, R77). -/
def frameAcc : BitVec 32 := accSum (frameHeader.take csRange)

/-- The request frame: the fixed fields, then the checksum at offsets 19 and 20, high byte first (R75, R121). -/
def frameBytes : Vector Byte 21 :=
  Vector.ofFn fun i =>
    (frameHeader ++ [hiByte (frameAcc.setWidth 16), loByte (frameAcc.setWidth 16)]).getD i.val 0

/-- BUILD's effect (R121). -/
def State.build (s : State) : State :=
  { s with txf := frameBytes, acc := frameAcc, csr := frameAcc.setWidth 16, status.txfValid := true }

/-- `BUILD` (R121): always performed. -/
def execBuild (s : State) : Host.Outcome State Fault Refusal := .next (s.build.setErr .none)

end Sys2Proof.Machine
end

