-- ==== Sys2Proof/Machine/Loading.lean ====
section
/-! DEFINITION. The command LOAD (R53) and the reserved operation codes (R73). -/

namespace Sys2Proof.Machine

/-- LOAD's effect: `RXB[i] <- d[i]` for each byte on DATA_IN, `RXLEN <- n` (R53). -/
def State.loadBytes (n : U16) (s : State) : State :=
  { s with rxb := Memory.writeBytes s.rxb 0 s.dataIn, rxlen := n }

/-- `LOAD n` (R53). With other than `n` bytes on DATA_IN the step is refused at the model's boundary (U13, log 10). -/
def execLoad (n : U16) (s : State) : Host.Outcome State Fault Refusal :=
  if n.toNat > s.cfg.bufMax then refuse .range s
  else if s.dataIn.length = n.toNat then .next ((s.loadBytes n).setErr .none)
  else .refused .dataInLength

/-- Operation code 5: refused with `ERR_CMD` (R73). -/
def execReserved5 (s : State) : Host.Outcome State Fault Refusal := refuse .cmd s

/-- Operation code 6: refused with `ERR_CMD` (R73). -/
def execReserved6 (s : State) : Host.Outcome State Fault Refusal := refuse .cmd s

/-- Operation code 7: refused with `ERR_CMD` (R73). -/
def execReserved7 (s : State) : Host.Outcome State Fault Refusal := refuse .cmd s

end Sys2Proof.Machine
end

