-- ==== Sys2Proof/Machine/Dispatch.lean ====
section
/-! DEFINITION. One arm per constructor of `Instr`, each one call of that instruction's meaning. -/

namespace Sys2Proof.Machine

def exec (i : Instr) (s : State) : Host.Outcome State Fault Refusal :=
  match i with
  | .load n => Sys2Proof.Machine.execLoad n s
  | .build => Sys2Proof.Machine.execBuild s
  | .csum sel a b => Sys2Proof.Machine.execCsum sel a b s
  | .verify sel a b c => Sys2Proof.Machine.execVerify sel a b c s
  | .decode => Sys2Proof.Machine.execDecode s
  | .reserved5 => Sys2Proof.Machine.execReserved5 s
  | .reserved6 => Sys2Proof.Machine.execReserved6 s
  | .reserved7 => Sys2Proof.Machine.execReserved7 s
  | .chkframe => Sys2Proof.Machine.execChkframe s
  | .csumall b => Sys2Proof.Machine.execCsumall b s
  | .f79 => Sys2Proof.Machine.execF79 s
  | .f80 => Sys2Proof.Machine.execF80 s
  | .f81 => Sys2Proof.Machine.execF81 s
  | .f82 => Sys2Proof.Machine.execF82 s
  | .f83 => Sys2Proof.Machine.execF83 s
  | .f84 => Sys2Proof.Machine.execF84 s
  | .f85 => Sys2Proof.Machine.execF85 s
  | .f86 => Sys2Proof.Machine.execF86 s
  | .f8a => Sys2Proof.Machine.execF8a s
  | .f8b => Sys2Proof.Machine.execF8b s
  | .f9d => Sys2Proof.Machine.execF9d s
  | .fad => Sys2Proof.Machine.execFad s
  | .fb7 => Sys2Proof.Machine.execFb7 s
  | .fb8 => Sys2Proof.Machine.execFb8 s
  | .fb9 => Sys2Proof.Machine.execFb9 s
  | .fc0 => Sys2Proof.Machine.execFc0 s
  | .fdelta => Sys2Proof.Machine.execFdelta s

end Sys2Proof.Machine
end

