-- ==== Sys2Proof/Machine/Step.lean ====
section
/-! DEFINITION. One step of the machine, and where the host's checks put an instruction. A step runs the field operation
at the head of the sequencer's list if there is one (log 11), else the host's next command, as one atomic step (R40,
R237); with no command it waits (R46, log 9). -/

namespace Sys2Proof.Machine

/-- One step (R40, R58). -/
def step (s : State) : Host.Outcome State Fault Refusal :=
  match s.seq with
  | f :: rest => exec (opOf f) (s.takeOp rest)
  | [] =>
    match s.cmdIn with
    | [] => .next s
    | c :: rest => endCommand (exec (decodeCommand c.word) (s.accept c rest))

/-- The instruction of `nbits` bits `w`, placed where `step` takes its next instruction (log 16). -/
def State.withFetchWord (s : State) (nbits w : Nat) : State := s.presentBits nbits w

end Sys2Proof.Machine
end

