-- ==== Sys2Proof/Machine/Ports.lean ====
section
/-! DEFINITION. The read ports (R42) as views of the state, and what the registers they show mean (R26, R27, R160).
Reading a port changes nothing (R54). -/

namespace Sys2Proof.Machine

/-- `TXF_OUT` (R42). -/
def txfOut (s : State) : Vector Byte 21 := s.txf

/-- `CSR_OUT` (R42). -/
def csrOut (s : State) : U16 := s.csr

/-- `STATUS_OUT` (R42, R35). -/
def statusOut (s : State) : U16 := s.status.word

/-- `RXLEN_OUT` (R42). -/
def rxlenOut (s : State) : U16 := s.rxlen

/-- `RESULT_OUT` (R42). -/
def resultOut (s : State) : Reading := s.result

/-- `V_F` as the host reads it (R28). -/
def validOut (s : State) (f : FieldId) : BitVec 1 := BitVec.ofBool (s.result.valid f)

/-- `FS_F` as the host reads it (R202). -/
def causeOut (s : State) (f : FieldId) : BitVec 3 := (s.result.cause f).code

/-- The volts `R_VOLT` stands for, exactly (R26). -/
def voltsOut (s : State) : Rat := (s.result.volt.val.toNat : Rat) / 100

/-- The amps `R_CUR` stands for, exactly (R26). -/
def ampsOut (s : State) : Rat := (signedValue s.result.cur.val : Rat) / 100

/-- The volts of cell `j`, exactly (R26). -/
def cellVoltsOut (s : State) (j : Fin 85) : Rat := (s.result.cells.val.cell[j].mv.toNat : Rat) / 1000

/-- The volts `R_DELTA` stands for, exactly (R26). -/
def deltaVoltsOut (s : State) : Rat := (s.result.delta.val.toNat : Rat) / 1000

/-- The named warning bits (R160), in bit order. -/
inductive Warning where
  | lowCapacity | mosOvertemp | chargeOvervoltage | dischargeUndervoltage | batteryOvertemp | chargeOvercurrent
  | dischargeOvercurrent | cellDifferentialPressure | batteryBoxOvertemp | batteryLowTemp | monomerOvervoltage
  | monomerUndervoltage | protection309A | protection309B
deriving DecidableEq, Repr

/-- The fourteen names in the order of their bits (R160). -/
def warningNames : List Warning :=
  [.lowCapacity, .mosOvertemp, .chargeOvervoltage, .dischargeUndervoltage, .batteryOvertemp, .chargeOvercurrent,
    .dischargeOvercurrent, .cellDifferentialPressure, .batteryBoxOvertemp, .batteryLowTemp, .monomerOvervoltage,
    .monomerUndervoltage, .protection309A, .protection309B]

/-- The active warnings: warning `i` is active exactly when `R_WSET[i] = 1` (R162). -/
def activeWarnings (s : State) : List Warning :=
  (warningNames.zipIdx.filter fun x => s.result.warn.val.wset.getLsbD x.2).map Prod.fst

end Sys2Proof.Machine
end

