-- ==== Sys2Proof/Safety.lean ====
section
/-! DEFINITION. The terms claims are stated in: what the spec says of the buffer and of each field, written from the rules
without the machine's own functions, and the invariant that holds between commands. -/

namespace Sys2Proof.Machine

/-! ### The buffer -/

/-- `RXB[i]`. -/
def byteAt (s : State) (i : Nat) : Byte := Memory.read s.rxb i

/-- No byte of the valid buffer equals `t` (R203). -/
def NoTag (s : State) (t : Byte) : Prop := ∀ q, q < s.rxlen.toNat → byteAt s q ≠ t

/-- `p` is the least index of the valid buffer whose byte is `t` (R132). -/
def FirstAt (s : State) (t : Byte) (p : Nat) : Prop :=
  p < s.rxlen.toNat ∧ byteAt s p = t ∧ ∀ q, q < p → byteAt s q ≠ t

/-- The raw value of a two-byte entry whose tag is at `p`: `RXB[p+1] × 256 + RXB[p+2]` (R79, R150). -/
def rawPair (s : State) (p : Nat) : Nat := (byteAt s (p + 1)).toNat * 256 + (byteAt s (p + 2)).toNat

/-- The raw value of a one-byte entry whose tag is at `p` (R79, R150). -/
def rawByte (s : State) (p : Nat) : Nat := (byteAt s (p + 1)).toNat

/-! ### What a tag operation leaves in its field -/

/-- The extraction protocol for a payload of `k` bytes (R133, R134, R203, R204): absent with TAG_NOT_FOUND, absent with
TRUNCATED, or whatever `good` says of a complete payload. `old` is the field before, whose value registers an absent
field keeps (R10). -/
def TagField {α : Type} (s : State) (t : Byte) (k : Nat) (old new : FieldReg α) (good : Nat → Prop) : Prop :=
  (NoTag s t → new = ⟨false, .tagNotFound, old.val⟩) ∧
  (∀ p, FirstAt s t p → s.rxlen.toNat ≤ p + k → new = ⟨false, .truncated, old.val⟩) ∧
  (∀ p, FirstAt s t p → p + k < s.rxlen.toNat → good p)

/-- A two-byte field kept as it is (R156, R161, R164, R166). -/
def PairField (s : State) (t : Byte) (old new : FieldReg U16) : Prop :=
  TagField s t 2 old new fun p => new.v = true ∧ new.fs = .ok ∧ new.val.toNat = rawPair s p

/-- A one-byte field kept as it is (R158, R159, R167). -/
def ByteField (s : State) (t : Byte) (old new : FieldReg Byte) : Prop :=
  TagField s t 1 old new fun p => new.v = true ∧ new.fs = .ok ∧ new.val.toNat = rawByte s p

/-- The °C that R151 gives a raw value, with the parameter `TEMP_AT_100` at raw 100 (U9). -/
def degrees (c : Config) (raw : Nat) : Int :=
  if raw < 100 then raw
  else if raw = 100 then (match c.tempAt100 with | .hundred => 100 | .zero => 0)
  else 100 - (raw : Int)

/-- A temperature field (R151 to R154): the register, read as s17, holds the degrees. -/
def TempField (s : State) (t : Byte) (old new : FieldReg (BitVec 17)) : Prop :=
  TagField s t 2 old new fun p => new.v = true ∧ new.fs = .ok ∧ new.val.toInt = degrees s.cfg (rawPair s p)

/-- The current field (R155, R157): low branch, high branch, dead zone. -/
def CurrentField (s : State) (old new : FieldReg U16) : Prop :=
  TagField s 0x84 2 old new fun p =>
    (rawPair s p ≤ 10000 → new.v = true ∧ new.fs = .ok ∧ new.val.toInt = rawPair s p) ∧
    (32768 ≤ rawPair s p → new.v = true ∧ new.fs = .ok ∧ new.val.toInt = (rawPair s p : Int) - 32768) ∧
    (10000 < rawPair s p → rawPair s p < 32768 → new = ⟨false, .outOfRange, old.val⟩)

/-- The condition of `A_CUR` (R205): a complete current entry in the dead zone. -/
def DeadZoneEntry (s : State) : Prop :=
  ∃ p, FirstAt s 0x84 p ∧ p + 2 < s.rxlen.toNat ∧ 10000 < rawPair s p ∧ rawPair s p < 32768

/-- The warning field (R162): the raw word, and its low fourteen bits. -/
def WarningField (s : State) (old new : FieldReg Warnings) : Prop :=
  TagField s 0x8B 2 old new fun p =>
    new.v = true ∧ new.fs = .ok ∧ new.val.warn.toNat = rawPair s p ∧
      ∀ i, i < 14 → new.val.wset.getLsbD i = (rawPair s p).testBit i

/-- The balance field (R163): only the byte 1 is true. -/
def BalanceField (s : State) (old new : FieldReg (BitVec 1)) : Prop :=
  TagField s 0x9D 1 old new fun p =>
    new.v = true ∧ new.fs = .ok ∧ (rawByte s p = 1 → new.val = 1) ∧ (rawByte s p ≠ 1 → new.val = 0)

/-- The calibration field (R165): 1 active, 0 inactive, else 2, the raw byte kept. -/
def CalibrationField (s : State) (old new : FieldReg Calibration) : Prop :=
  TagField s 0xB8 1 old new fun p =>
    new.v = true ∧ new.fs = .ok ∧ new.val.raw.toNat = rawByte s p ∧
      (rawByte s p = 1 → new.val.st = 1) ∧ (rawByte s p = 0 → new.val.st = 0) ∧ (1 < rawByte s p → new.val.st = 2)

/-- The condition of `A_CAL` (R205): a complete calibration entry with a byte other than 0 or 1. -/
def UnknownCalEntry (s : State) : Prop := ∃ p, FirstAt s 0xB8 p ∧ p + 1 < s.rxlen.toNat ∧ 1 < rawByte s p

/-- The registers of a cell block of `n` groups whose tag is at `p` (R181, R182): the groups in buffer order, later
entries as before. -/
def GroupsStored (s : State) (p n : Nat) (old new : CellBlock) : Prop :=
  new.ncell.toNat = n ∧
  ∀ j : Fin 85,
    (j.val < n →
      new.cell[j].idx = byteAt s (p + 2 + 3 * j.val) ∧
      new.cell[j].mv.toNat = (byteAt s (p + 3 + 3 * j.val)).toNat * 256 + (byteAt s (p + 4 + 3 * j.val)).toNat) ∧
    (n ≤ j.val → new.cell[j] = old.cell[j])

/-- The cell field (R181, R183, R184): as the extraction protocol with the payload's length read from the buffer, the
length byte `rawByte s p` first. -/
def CellsField (s : State) (old new : FieldReg CellBlock) : Prop :=
  TagField s 0x79 1 old new fun p =>
    (s.rxlen.toNat ≤ p + 1 + rawByte s p → new = ⟨false, .truncated, old.val⟩) ∧
    (p + 1 + rawByte s p < s.rxlen.toNat → rawByte s p % 3 ≠ 0 → s.cfg.cellPartial = false →
      new = ⟨false, .outOfRange, old.val⟩) ∧
    (p + 1 + rawByte s p < s.rxlen.toNat → rawByte s p % 3 = 0 ∨ s.cfg.cellPartial = true →
      new.v = true ∧ new.fs = .ok ∧ GroupsStored s p (rawByte s p / 3) old.val new.val)

/-- The condition of `A_CELL` (R205): a complete cell block whose length is not a multiple of 3. -/
def BadLengthBlock (s : State) : Prop :=
  ∃ p, FirstAt s 0x79 p ∧ p + 1 + rawByte s p < s.rxlen.toNat ∧ rawByte s p % 3 ≠ 0

/-- The version field (R185, R31): fifteen bytes unchanged, and the mask of those of 0x80 and above. -/
def VersionField (s : State) (old new : FieldReg Version) : Prop :=
  TagField s 0xB7 15 old new fun p =>
    new.v = true ∧ new.fs = .ok ∧
      ∀ i : Fin 15,
        new.val.bytes[i] = byteAt s (p + 1 + i.val) ∧
        (new.val.bad.getLsbD i.val = true ↔ 128 ≤ (byteAt s (p + 1 + i.val)).toNat)

/-- The delta voltage from the cell registers (R186): the greatest millivolts less the least, or EMPTY_SOURCE. -/
def DeltaField (cells : FieldReg CellBlock) (old new : FieldReg U16) : Prop :=
  (cells.v = true → 0 < cells.val.ncell.toNat → cells.val.ncell.toNat ≤ 85 →
    new.v = true ∧ new.fs = .ok ∧
      ∃ hi lo : Fin 85, hi.val < cells.val.ncell.toNat ∧ lo.val < cells.val.ncell.toNat ∧
        (∀ j : Fin 85, j.val < cells.val.ncell.toNat →
          cells.val.cell[j].mv.toNat ≤ cells.val.cell[hi].mv.toNat ∧
          cells.val.cell[lo].mv.toNat ≤ cells.val.cell[j].mv.toNat) ∧
        new.val.toNat = cells.val.cell[hi].mv.toNat - cells.val.cell[lo].mv.toNat) ∧
  (cells.v = false ∨ cells.val.ncell = 0 → new = ⟨false, .emptySource, old.val⟩)

/-- All seventeen fields as their rules say for the buffer of `s`, over the cleared reading (R131, R135, R137). -/
structure DecodesTo (s : State) (r : Reading) : Prop where
  cells : CellsField s (Reading.blank .notDecoded).cells r.cells
  ttube : TempField s 0x80 (Reading.blank .notDecoded).ttube r.ttube
  tbox : TempField s 0x81 (Reading.blank .notDecoded).tbox r.tbox
  tcell : TempField s 0x82 (Reading.blank .notDecoded).tcell r.tcell
  volt : PairField s 0x83 (Reading.blank .notDecoded).volt r.volt
  cur : CurrentField s (Reading.blank .notDecoded).cur r.cur
  soc : ByteField s 0x85 (Reading.blank .notDecoded).soc r.soc
  ntemp : ByteField s 0x86 (Reading.blank .notDecoded).ntemp r.ntemp
  nstr : PairField s 0x8A (Reading.blank .notDecoded).nstr r.nstr
  warn : WarningField s (Reading.blank .notDecoded).warn r.warn
  bal : BalanceField s (Reading.blank .notDecoded).bal r.bal
  calma : PairField s 0xAD (Reading.blank .notDecoded).calma r.calma
  swver : VersionField s (Reading.blank .notDecoded).swver r.swver
  calst : CalibrationField s (Reading.blank .notDecoded).calst r.calst
  cap : PairField s 0xB9 (Reading.blank .notDecoded).cap r.cap
  proto : ByteField s 0xC0 (Reading.blank .notDecoded).proto r.proto
  delta : DeltaField r.cells (Reading.blank .notDecoded).delta r.delta

/-! ### Checksums -/

/-- The sum of the bytes of a source at the indices of `[a, b)`, as integers (R100, R106). -/
def rangeTotal (s : State) (sel : Source) (a b : Nat) : Nat := ∑ i ∈ Finset.Ico a b, (srcByte s sel i).toNat

/-- The request frame, the 21 bytes of R122. -/
def requestFrame : List Byte :=
  [0x4E, 0x57, 0x00, 0x13, 0x00, 0x00, 0x00, 0x00, 0x06, 0x03, 0x00, 0x00, 0x00, 0x00, 0x00, 0x00, 0x68, 0x00, 0x00,
    0x01, 0x29]

/-! ### What holds between commands -/

/-- A field that is absent reads 0 in its value registers (R28, R135). -/
def ZeroIfAbsent {α : Type} (z : α) (f : FieldReg α) : Prop := f.v = false → f.val = z

/-- Every absent field's value registers read 0 (R28, R135). -/
structure AbsentReadsZero (r : Reading) : Prop where
  cells : ZeroIfAbsent (Reading.blank .notDecoded).cells.val r.cells
  ttube : ZeroIfAbsent 0 r.ttube
  tbox : ZeroIfAbsent 0 r.tbox
  tcell : ZeroIfAbsent 0 r.tcell
  volt : ZeroIfAbsent 0 r.volt
  cur : ZeroIfAbsent 0 r.cur
  soc : ZeroIfAbsent 0 r.soc
  ntemp : ZeroIfAbsent 0 r.ntemp
  nstr : ZeroIfAbsent 0 r.nstr
  warn : ZeroIfAbsent ⟨0, 0⟩ r.warn
  bal : ZeroIfAbsent 0 r.bal
  calma : ZeroIfAbsent 0 r.calma
  swver : ZeroIfAbsent (Reading.blank .notDecoded).swver.val r.swver
  calst : ZeroIfAbsent ⟨0, 0⟩ r.calst
  cap : ZeroIfAbsent 0 r.cap
  proto : ZeroIfAbsent 0 r.proto
  delta : ZeroIfAbsent 0 r.delta

/-- The state between two commands of a run: what the rules promise of every register then. -/
structure Inv (s : State) : Prop where
  /-- `39 ≤ BUF_MAX ≤ 65535` (R8). -/
  cfgOk : s.cfg.Ok
  /-- The response buffer keeps its canonical form. -/
  memWf : Memory.wf s.rxb
  /-- Only indices below `BUF_MAX` exist (R21). -/
  memBound : ∀ c ∈ s.rxb, c.1 < s.cfg.bufMax
  /-- `RXLEN ≤ BUF_MAX` (R22). -/
  lenBound : s.rxlen.toNat ≤ s.cfg.bufMax
  /-- No field operation is outstanding: DECODE runs them all (R86). -/
  noOps : s.seq = []
  /-- Nothing stands on DATA_IN between commands (R41). -/
  noData : s.dataIn = []
  /-- `FS_F` is OK exactly when `V_F = 1` (R29). -/
  causeOk : ∀ f, s.result.cause f = .ok ↔ s.result.valid f = true
  /-- Absent fields read 0 (R28). -/
  absentZero : AbsentReadsZero s.result
  /-- Once built, the frame is the frame of R122 (R23, R43). -/
  frameBuilt : s.status.txfValid = true → s.txf.toList = requestFrame
  /-- At most 85 cells (R30). -/
  cellCount : s.result.cells.val.ncell.toNat ≤ 85
  /-- Entries at and above `R_NCELL` read (0, 0) (R30). -/
  cellTail : ∀ j : Fin 85, s.result.cells.val.ncell.toNat ≤ j.val → s.result.cells.val.cell[j] = ⟨0, 0⟩
  /-- `R_CALST` is never 3 (R33). -/
  calStates : s.result.calst.val.st ≠ 3
  /-- `R_CUR` is never negative (R27). -/
  curSign : 0 ≤ s.result.cur.val.toInt
  /-- `R_WSET = R_WARN[13:0]` (R32). -/
  warnSet : s.result.warn.val.wset = s.result.warn.val.warn.setWidth 14
  /-- `R_SWBAD[i] = 1` exactly when `R_SWVER[i] ≥ 0x80` (R31). -/
  badBytes : ∀ i : Fin 15, s.result.swver.val.bad.getLsbD i.val = true ↔ 128 ≤ (s.result.swver.val.bytes[i]).toNat
  /-- The delta is present exactly when there are cells (R186). -/
  deltaPresent : s.result.delta.v = true ↔ s.result.cells.v = true ∧ s.result.cells.val.ncell ≠ 0
  /-- `A_CUR` goes with the cause OUT_OF_RANGE of the current (R205). -/
  curAnomaly : s.status.aCur = true ↔ s.result.cur.fs = .outOfRange
  /-- `A_CAL` goes with the unknown state (R205). -/
  calAnomalous : s.status.aCal = true ↔ s.result.calst.val.st = 2
  /-- `A_CELL` goes with the cause OUT_OF_RANGE of the cells, unless partial blocks are kept (R205, R183). -/
  cellAnomaly : s.cfg.cellPartial = false → (s.status.aCell = true ↔ s.result.cells.fs = .outOfRange)
  /-- Before the first DECODE every field is absent and NOT_DECODED (R46, R202). -/
  beforeDecode : s.status.decDone = false → s.result = Reading.blank .notDecoded ∧ s.status.lenOk = false
  /-- After a DECODE no field is NOT_DECODED (R135). -/
  afterDecode : s.status.decDone = true → ∀ f, s.result.cause f ≠ .notDecoded
  /-- After a DECODE that failed the guard every field is absent, UNDERSIZED (R206). -/
  guardFailed : s.status.decDone = true → s.status.lenOk = false → s.result = Reading.blank .undersized

/-- The registers, valid bit and cause code of one field are the same in two readings (R25). -/
def SameField (f : FieldId) (r r' : Reading) : Prop :=
  match f with
  | .cells => r.cells = r'.cells
  | .ttube => r.ttube = r'.ttube
  | .tbox => r.tbox = r'.tbox
  | .tcell => r.tcell = r'.tcell
  | .volt => r.volt = r'.volt
  | .cur => r.cur = r'.cur
  | .soc => r.soc = r'.soc
  | .ntemp => r.ntemp = r'.ntemp
  | .nstr => r.nstr = r'.nstr
  | .warn => r.warn = r'.warn
  | .bal => r.bal = r'.bal
  | .calma => r.calma = r'.calma
  | .swver => r.swver = r'.swver
  | .calst => r.calst = r'.calst
  | .cap => r.cap = r'.cap
  | .proto => r.proto = r'.proto
  | .delta => r.delta = r'.delta

/-- The state with the scan pointer set aside: what is left of it once the internal pointer, which no port shows (R37),
is not looked at. -/
def dropSp (s : State) : State := { s with sp := 0 }

end Sys2Proof.Machine
end

