-- ==== Sys2Proof/Certificates/Slice0/Obligations.lean ====
section
/-! DEFINITION. What is claimed of the block, rule by rule. Each docstring names the rule it formalises. Where a statement
says `t = { s with … := t.… }` it gives the frame: everything not listed is as before. -/

open Sys2Proof Sys2Proof.Machine

/-! ### Encodings -/

/-- Words written out from the encodings of R71, R72, R80 and R86 (several stand in 95_test_vectors.md) decode to what
they stand for. That the words 0x0013001100003 and 0x000000500000A decode to CHKFRAME and CSUMALL rather than to the VERIFY and
CSUM they expand to is the model's choice (log 12). -/
def Obligations.SpecWordsDecodeToTheirInstructions : Prop :=
  decode (.cw 0x0000000000500) = .ok (.load 80) ∧
  decode (.cw 0x9ABC567812349) = .ok .build ∧
  decode (.cw 0x0000001100002) = .ok (.csum .txf 0 17) ∧
  decode (.cw 0x004E004E0000B) = .ok (.verify .rxb 0 78 78) ∧
  decode (.cw 0x0000000000004) = .ok .decode ∧
  decode (.cw 0x0000000000005) = .ok .reserved5 ∧
  decode (.cw 0x0000000000006) = .ok .reserved6 ∧
  decode (.cw 0xFFFFFFFFFFFFF) = .ok .reserved7 ∧
  decode (.cw 0x0013001100003) = .ok .chkframe ∧
  decode (.cw 0x000000500000A) = .ok (.csumall 80) ∧
  decode (.tag 0x79) = .ok .f79 ∧
  decode (.tag 0xB7) = .ok .fb7 ∧
  decode (.tag 0xC0) = .ok .fc0 ∧
  decode (.tag 0x7A) = .error (.notATag 0x7A)

/-- Decoding the encoding of any well-formed instruction gives that instruction, with every operand (R71, R72, R80).
Which spelling of a pseudo-command is well formed is the model's choice (log 12). -/
def Obligations.DecodeOfEncodeIsTheInstruction : Prop :=
  ∀ i : Instr, i.wellFormed = true → decode (encode i) = .ok i

/-- R72: `CW[2:0]` alone selects the command, the fields it uses are those of the table, and no other field has an effect
(a pseudo-command's name stands for its expansion, R86). -/
def Obligations.OperationCodeSelectsTheCommand : Prop :=
  ∀ w : BitVec 52,
    (w.toNat % 8 = 0 → (decodeCommand w).expand = .load (BitVec.ofNat 16 (w.toNat / 16))) ∧
    (w.toNat % 8 = 1 → (decodeCommand w).expand = .build) ∧
    (w.toNat % 8 = 2 →
      (decodeCommand w).expand =
        .csum (if w.toNat / 8 % 2 = 0 then .txf else .rxb) (BitVec.ofNat 16 (w.toNat / 2 ^ 4))
          (BitVec.ofNat 16 (w.toNat / 2 ^ 20))) ∧
    (w.toNat % 8 = 3 →
      (decodeCommand w).expand =
        .verify (if w.toNat / 8 % 2 = 0 then .txf else .rxb) (BitVec.ofNat 16 (w.toNat / 2 ^ 4))
          (BitVec.ofNat 16 (w.toNat / 2 ^ 20)) (BitVec.ofNat 16 (w.toNat / 2 ^ 36))) ∧
    (w.toNat % 8 = 4 → (decodeCommand w).expand = .decode) ∧
    (w.toNat % 8 = 5 → (decodeCommand w).expand = .reserved5) ∧
    (w.toNat % 8 = 6 → (decodeCommand w).expand = .reserved6) ∧
    (w.toNat % 8 = 7 → (decodeCommand w).expand = .reserved7)

/-- R80, R83: a byte is decoded as a tag operation exactly when it is one of the sixteen tag values; the other 240 are
rejected by name. -/
def Obligations.OnlyTheSixteenTagBytesDecode : Prop :=
  ∀ b : Byte,
    if b ∈ ([0x79, 0x80, 0x81, 0x82, 0x83, 0x84, 0x85, 0x86, 0x8A, 0x8B, 0x9D, 0xAD, 0xB7, 0xB8, 0xB9, 0xC0] : List Byte)
    then ∃ i, decode (.tag b) = .ok i ∧ encode i = .tag b
    else decode (.tag b) = .error (.notATag b)

/-! ### A step -/

/-- A step performs the host's next command: it runs the instruction the command word decodes to, with the command's
bytes on DATA_IN, and leaves the ports free (R40, R41; that the commands stand in a list is logs 9 and 10). -/
def Obligations.StepRunsTheDecodedCommand : Prop :=
  ∀ (s : State) (c : HostCommand) (rest : List HostCommand) (i : Instr),
    s.seq = [] → s.cmdIn = c :: rest → decode (.cw c.word) = .ok i →
    (∀ t, exec i { s with cmdIn := rest, dataIn := c.data } = .next t → step s = .next { t with dataIn := [] }) ∧
    (∀ r, exec i { s with cmdIn := rest, dataIn := c.data } = .refused r → step s = .refused r)

/-- A field operation handed to the sequencer is run by the next step (the model's own way in, log 11). -/
def Obligations.StepRunsTheFieldOperation : Prop :=
  ∀ (s : State) (f : FieldId) (rest : List FieldId),
    s.seq = f :: rest → step s = exec (opOf f) { s with seq := rest }

/-- With no command from the host the block waits: the state stays as it is (R46, log 9). -/
def Obligations.StepWithoutACommandWaits : Prop :=
  ∀ s : State, s.seq = [] → s.cmdIn = [] → step s = .next s

/-- R200, U13: no instruction faults, and the only one without a next state is a LOAD whose DATA_IN bytes are not as many
as its count. -/
def Obligations.OnlyAMismatchedLoadHasNoNextState : Prop :=
  ∀ (i : Instr) (s : State),
    (∃ t, exec i s = .next t) ∨
    (∃ n : U16, i = .load n ∧ n.toNat ≤ s.cfg.bufMax ∧ s.dataIn.length ≠ n.toNat ∧ exec i s = .refused .dataInLength)

/-! ### The invariant, and reset -/

/-- The state after reset is one the invariant allows. -/
def Obligations.ResetMeetsTheInvariant : Prop := Inv State.reset

/-- From every state the invariant allows, a step leads to such a state: the buffer's canonical form and bounds, cause
codes and valid bits in agreement, absent fields reading 0, the frame, and the anomaly bits in agreement with the
fields (R8, R21 to R23, R27 to R33, R135, R186, R205, R206). -/
def Obligations.EveryStepKeepsTheInvariant : Prop :=
  ∀ s t : State, Inv s → step s = .next t → Inv t

/-- R46: what reset leaves, wherever R46 states a value. -/
def Obligations.ResetLooksLikeNoPollYet : Prop :=
  State.reset.rxlen = 0 ∧ State.reset.csr = 0 ∧ State.reset.status.word = 0 ∧
  (∀ f, State.reset.result.valid f = false ∧ (State.reset.result.cause f).code = 5) ∧
  AbsentReadsZero State.reset.result

/-- R232: what each command does right after reset, with its operands and any bytes on DATA_IN. -/
def Obligations.EveryCommandIsDefinedAfterReset : Prop :=
  (∃ t, exec .decode State.reset = .next t ∧
    (∀ f, t.result.valid f = false ∧ t.result.cause f = .undersized) ∧ t.status.lenOk = false ∧ t.status.decDone = true) ∧
  (∃ t, exec .build State.reset = .next t ∧ t.txf.toList = requestFrame ∧ t.status.txfValid = true) ∧
  (∃ t, exec (.csum .rxb 0 0) State.reset = .next t ∧ t.csr = 0 ∧ t.status.err = .none) ∧
  exec (.csum .rxb 0 1) State.reset = .next { State.reset with status.err := .range } ∧
  (∀ a b, exec (.csum .txf a b) State.reset = .next { State.reset with status.err := .uninit }) ∧
  (∀ a b c, exec (.verify .txf a b c) State.reset = .next { State.reset with status.err := .uninit }) ∧
  (∀ (n : U16) (d : List Byte), n.toNat ≤ State.reset.cfg.bufMax → d.length = n.toNat →
    ∃ t, exec (.load n) { State.reset with dataIn := d } = .next t ∧ t.rxlen = n ∧ t.status.err = .none)

/-! ### LOAD and BUILD -/

/-- R53: LOAD writes the bytes of DATA_IN from index 0 on, sets RXLEN, leaves every other byte and everything else; it is
refused when the count exceeds BUF_MAX. (The canonical form is what the invariant keeps.) -/
def Obligations.LoadFillsTheBuffer : Prop :=
  ∀ (n : U16) (s : State), Memory.wf s.rxb →
    (s.cfg.bufMax < n.toNat → exec (.load n) s = .next { s with status.err := .range }) ∧
    (n.toNat ≤ s.cfg.bufMax → s.dataIn.length = n.toNat →
      ∃ t, exec (.load n) s = .next t ∧
        (∀ i (h : i < s.dataIn.length), byteAt t i = s.dataIn[i]) ∧
        (∀ i, n.toNat ≤ i → byteAt t i = byteAt s i) ∧
        t = { s with rxb := t.rxb, rxlen := n, status.err := .none })

/-- U13: a LOAD whose DATA_IN bytes are not as many as its count is refused at the model's boundary (log 10). -/
def Obligations.LoadWithTheWrongNumberOfBytesStops : Prop :=
  ∀ (n : U16) (s : State), n.toNat ≤ s.cfg.bufMax → s.dataIn.length ≠ n.toNat →
    exec (.load n) s = .refused .dataInLength

/-- R121, R122: BUILD always succeeds, writes the 21 bytes of the frame and its checksum, and nothing else (but the
internal ACC, of which R37 says nothing between commands). -/
def Obligations.BuildWritesTheRequestFrame : Prop :=
  ∀ s : State, ∃ t, exec .build s = .next t ∧ t.txf.toList = requestFrame ∧
    t = { s with txf := t.txf, csr := 0x0129, acc := t.acc, status.txfValid := true, status.err := .none }

/-- R123: after every BUILD, `VERIFY TXF, 0, 17, 19`, by either of its names, sets VOK, with the checksum 0x0129. -/
def Obligations.BuiltFrameVerifies : Prop :=
  ∀ s t : State, exec .build s = .next t →
    ∃ u, exec (.verify .txf 0 17 19) t = .next u ∧ exec .chkframe t = .next u ∧
      u.status.vok = true ∧ u.status.err = .none ∧ u.csr = 0x0129

/-! ### The checksum unit -/

/-- R106: CSUM's two refusals in order, and the sum of the range modulo 65536. -/
def Obligations.CsumSumsTheRange : Prop :=
  ∀ (sel : Source) (a b : U16) (s : State),
    (sel = .txf → s.status.txfValid = false → exec (.csum sel a b) s = .next { s with status.err := .uninit }) ∧
    (sel = .rxb ∨ s.status.txfValid = true → ¬(a.toNat ≤ b.toNat ∧ b.toNat ≤ srcLen s sel) →
      exec (.csum sel a b) s = .next { s with status.err := .range }) ∧
    (sel = .rxb ∨ s.status.txfValid = true → a.toNat ≤ b.toNat → b.toNat ≤ srcLen s sel →
      ∃ t, exec (.csum sel a b) s = .next t ∧
        t.csr.toNat = rangeTotal s sel a.toNat b.toNat % 65536 ∧
        t = { s with csr := t.csr, acc := t.acc, status.err := .none })

/-- R107: VERIFY's two refusals in order, the sum of the range, and VOK from the two stored bytes, high byte first. -/
def Obligations.VerifyComparesWithTheStoredBytes : Prop :=
  ∀ (sel : Source) (a b c : U16) (s : State),
    (sel = .txf → s.status.txfValid = false → exec (.verify sel a b c) s = .next { s with status.err := .uninit }) ∧
    (sel = .rxb ∨ s.status.txfValid = true →
      ¬(a.toNat ≤ b.toNat ∧ b.toNat ≤ srcLen s sel ∧ c.toNat + 2 ≤ srcLen s sel) →
      exec (.verify sel a b c) s = .next { s with status.err := .range }) ∧
    (sel = .rxb ∨ s.status.txfValid = true →
      a.toNat ≤ b.toNat → b.toNat ≤ srcLen s sel → c.toNat + 2 ≤ srcLen s sel →
      ∃ t, exec (.verify sel a b c) s = .next t ∧
        t.csr.toNat = rangeTotal s sel a.toNat b.toNat % 65536 ∧
        (t.status.vok = true ↔
          rangeTotal s sel a.toNat b.toNat % 65536 =
            (srcByte s sel c.toNat).toNat * 256 + (srcByte s sel (c.toNat + 1)).toNat) ∧
        t = { s with csr := t.csr, acc := t.acc, status.vok := t.status.vok, status.err := .none })

/-- R86: CHKFRAME is refused before any BUILD and otherwise compares the sum of frame bytes 0 to 16 with bytes 19, 20. -/
def Obligations.ChkframeChecksTheFrame : Prop :=
  ∀ s : State,
    (s.status.txfValid = false → exec .chkframe s = .next { s with status.err := .uninit }) ∧
    (s.status.txfValid = true →
      ∃ t, exec .chkframe s = .next t ∧
        t.csr.toNat = rangeTotal s .txf 0 17 ∧
        (t.status.vok = true ↔ rangeTotal s .txf 0 17 = s.txf[19].toNat * 256 + s.txf[20].toNat) ∧
        t = { s with csr := t.csr, acc := t.acc, status.vok := t.status.vok, status.err := .none })

/-- R86, R100: CSUMALL, with the current RXLEN as its operand, gives the checksum of the whole buffer. -/
def Obligations.CsumallSumsTheWholeBuffer : Prop :=
  ∀ s : State, ∃ t, exec (.csumall s.rxlen) s = .next t ∧
    t.csr.toNat = (∑ i ∈ Finset.range s.rxlen.toNat, (byteAt s i).toNat) % 65536 ∧
    t = { s with csr := t.csr, acc := t.acc, status.err := .none }

/-- R86: CSUMALL with any operand acts as `CSUM RXB, 0, b`, and CHKFRAME as `VERIFY TXF, 0, 17, 19`. -/
def Obligations.PseudoCommandsActAsTheirExpansion : Prop :=
  ∀ (i : Instr) (s : State), exec i s = exec i.expand s

/-- R102: over at most 65535 bytes the 32-bit accumulator holds the sum itself. -/
def Obligations.AccumulatorCannotOverflow : Prop :=
  ∀ l : List Byte, l.length ≤ 65535 → (accSum l).toNat = (l.map BitVec.toNat).sum

/-- R105: reducing early changes no sum modulo 65536, and keeping only sixteen bits at every addition gives the same
sixteen bits as the wide accumulator. -/
def Obligations.MaskingEarlyGivesTheSameChecksum : Prop :=
  (∀ x y : Int, (x % 65536 + y) % 65536 = (x + y) % 65536) ∧
  ∀ l : List Byte, l.foldl (fun (acc : U16) x => acc + x.setWidth 16) 0 = (accSum l).setWidth 16

/-- R104: for every byte sequence and every `TREE_W`, a power of two of at least 2, the reduction tree of R103 computes the
checksum of R100. -/
def Obligations.ReductionTreeComputesTheChecksum : Prop :=
  ∀ (k : Nat) (l : List Byte), 1 ≤ k → treeChecksum k l = checksum l

/-- R103: a node at level `j` of the tree is at most 255 × 2^j, which is below 2^(8+j), so no level loses a carry. -/
def Obligations.TreeNodesFitTheirLevelsWidth : Prop :=
  ∀ (k j : Nat) (chunk : List Byte) (x : Nat),
    x ∈ treeLevels j (treeLeaves k chunk) → x ≤ 255 * 2 ^ j ∧ x < 2 ^ (8 + j)

/-- R109: the checksum of a concatenation is the sum of the checksums, order does not matter, changing one byte changes
the checksum by the difference, and bytes of value 0 change nothing. -/
def Obligations.ChecksumIsAdditive : Prop :=
  (∀ l m : List Byte, checksum (l ++ m) = checksum l + checksum m) ∧
  (∀ l m : List Byte, l.Perm m → checksum l = checksum m) ∧
  (∀ (l : List Byte) (i : Nat) (h : i < l.length) (y : Byte),
    checksum (l.set i y) = checksum l + (y.setWidth 16 - l[i].setWidth 16)) ∧
  (∀ (l : List Byte) (n : Nat), checksum (l ++ List.replicate n 0) = checksum l)

/-- R55, R101: the high byte goes first: splitting a u16 and joining it again gives it back, and joining is
`h × 256 + l`. -/
def Obligations.HighByteFirst : Prop :=
  (∀ v : U16, be16 (hiByte v) (loByte v) = v) ∧
  (∀ h l : Byte, (be16 h l).toNat = h.toNat * 256 + l.toNat)

/-! ### The search and the field operations -/

/-- R132: the search gives the least index whose byte is the tag, and nothing exactly when there is none. -/
def Obligations.FindGivesTheFirstOccurrence : Prop :=
  ∀ (s : State) (t : Byte),
    (∀ p, find s.rxb s.rxlen.toNat t = some p ↔ FirstAt s t p) ∧
    (find s.rxb s.rxlen.toNat t = none ↔ NoTag s t)

/-- R152, R153, R154 with R151: each temperature operation completes, decodes its field and changes nothing else but the
scan pointer. -/
def Obligations.TemperatureOperationsDecode : Prop :=
  ∀ s : State,
    (∃ t, exec .f80 s = .next t ∧ TempField s 0x80 s.result.ttube t.result.ttube ∧
      t = { s with sp := t.sp, result.ttube := t.result.ttube }) ∧
    (∃ t, exec .f81 s = .next t ∧ TempField s 0x81 s.result.tbox t.result.tbox ∧
      t = { s with sp := t.sp, result.tbox := t.result.tbox }) ∧
    (∃ t, exec .f82 s = .next t ∧ TempField s 0x82 s.result.tcell t.result.tcell ∧
      t = { s with sp := t.sp, result.tcell := t.result.tcell })

/-- R27, R151: every temperature lies between −65435 and +100 and is what its s17 register then reads. -/
def Obligations.TemperatureFitsItsRegister : Prop :=
  ∀ (at100 : TempAt100) (raw : U16),
    -65435 ≤ tempdec at100 raw ∧ tempdec at100 raw ≤ 100 ∧
    signedValue (BitVec.ofInt 17 (tempdec at100 raw)) = tempdec at100 raw

/-- R156, R161, R164, R166: total voltage, string count, current calibration and capacity keep the two bytes as they are. -/
def Obligations.PlainTwoByteOperationsDecode : Prop :=
  ∀ s : State,
    (∃ t, exec .f83 s = .next t ∧ PairField s 0x83 s.result.volt t.result.volt ∧
      t = { s with sp := t.sp, result.volt := t.result.volt }) ∧
    (∃ t, exec .f8a s = .next t ∧ PairField s 0x8A s.result.nstr t.result.nstr ∧
      t = { s with sp := t.sp, result.nstr := t.result.nstr }) ∧
    (∃ t, exec .fad s = .next t ∧ PairField s 0xAD s.result.calma t.result.calma ∧
      t = { s with sp := t.sp, result.calma := t.result.calma }) ∧
    (∃ t, exec .fb9 s = .next t ∧ PairField s 0xB9 s.result.cap t.result.cap ∧
      t = { s with sp := t.sp, result.cap := t.result.cap })

/-- R157 with R155: the current's two branches and its dead zone, in which A_CUR is set; otherwise A_CUR stays. -/
def Obligations.CurrentOperationDecodes : Prop :=
  ∀ s : State, ∃ t, exec .f84 s = .next t ∧ CurrentField s s.result.cur t.result.cur ∧
    (t.status.aCur = true ↔ s.status.aCur = true ∨ DeadZoneEntry s) ∧
    t = { s with sp := t.sp, result.cur := t.result.cur, status.aCur := t.status.aCur }

/-- R158, R159, R167: state of charge, temperature sensor count and protocol version keep the byte as it is. -/
def Obligations.PlainOneByteOperationsDecode : Prop :=
  ∀ s : State,
    (∃ t, exec .f85 s = .next t ∧ ByteField s 0x85 s.result.soc t.result.soc ∧
      t = { s with sp := t.sp, result.soc := t.result.soc }) ∧
    (∃ t, exec .f86 s = .next t ∧ ByteField s 0x86 s.result.ntemp t.result.ntemp ∧
      t = { s with sp := t.sp, result.ntemp := t.result.ntemp }) ∧
    (∃ t, exec .fc0 s = .next t ∧ ByteField s 0xC0 s.result.proto t.result.proto ∧
      t = { s with sp := t.sp, result.proto := t.result.proto })

/-- R162: the raw warning word, the set of its fourteen named bits, and which warnings are then active. -/
def Obligations.WarningOperationDecodes : Prop :=
  ∀ s : State, ∃ t, exec .f8b s = .next t ∧ WarningField s s.result.warn t.result.warn ∧
    (∀ (i : Nat) (h : i < warningNames.length),
      warningNames[i] ∈ activeWarnings t ↔ t.result.warn.val.wset.getLsbD i = true) ∧
    t = { s with sp := t.sp, result.warn := t.result.warn }

/-- R160, R162: the fourteen names are those of the table in bit order, and warning `i` of it is among the active warnings exactly when `R_WSET[i] = 1`. -/
def Obligations.ActiveWarningsFollowTheSet : Prop :=
  warningNames =
    [.lowCapacity, .mosOvertemp, .chargeOvervoltage, .dischargeUndervoltage, .batteryOvertemp, .chargeOvercurrent,
      .dischargeOvercurrent, .cellDifferentialPressure, .batteryBoxOvertemp, .batteryLowTemp, .monomerOvervoltage,
      .monomerUndervoltage, .protection309A, .protection309B] ∧
  ∀ (s : State) (i : Nat) (h : i < warningNames.length),
    warningNames[i] ∈ activeWarnings s ↔ s.result.warn.val.wset.getLsbD i = true

/-- R163: the balance switch is true for the byte 1 only. -/
def Obligations.BalanceOperationDecodes : Prop :=
  ∀ s : State, ∃ t, exec .f9d s = .next t ∧ BalanceField s s.result.bal t.result.bal ∧
    t = { s with sp := t.sp, result.bal := t.result.bal }

/-- R165: three states, the raw byte kept, A_CAL set for the third; otherwise A_CAL stays. -/
def Obligations.CalibrationOperationDecodes : Prop :=
  ∀ s : State, ∃ t, exec .fb8 s = .next t ∧ CalibrationField s s.result.calst t.result.calst ∧
    (t.status.aCal = true ↔ s.status.aCal = true ∨ UnknownCalEntry s) ∧
    t = { s with sp := t.sp, result.calst := t.result.calst, status.aCal := t.status.aCal }

/-- R181 with R182, R183, R184: the cell block, its soft failures in order, its groups in buffer order, A_CELL set for a
complete block of bad length, and the parameter CELL_PARTIAL. -/
def Obligations.CellOperationDecodes : Prop :=
  ∀ s : State, ∃ t, exec .f79 s = .next t ∧ CellsField s s.result.cells t.result.cells ∧
    (t.status.aCell = true ↔ s.status.aCell = true ∨ BadLengthBlock s) ∧
    t = { s with sp := t.sp, result.cells := t.result.cells, status.aCell := t.status.aCell }

/-- R185: fifteen bytes unchanged and the mask of the bytes of 0x80 and above. -/
def Obligations.VersionOperationDecodes : Prop :=
  ∀ s : State, ∃ t, exec .fb7 s = .next t ∧ VersionField s s.result.swver t.result.swver ∧
    t = { s with sp := t.sp, result.swver := t.result.swver }

/-- R186: the delta voltage is the greatest less the least millivolts of the decoded cells, or absent. -/
def Obligations.DeltaOperationDecodes : Prop :=
  ∀ s : State, ∃ t, exec .fdelta s = .next t ∧ DeltaField s.result.cells s.result.delta t.result.delta ∧
    t = { s with result.delta := t.result.delta }

/-! ### DECODE -/

/-- R206: with 38 bytes or fewer DECODE makes no search and leaves all seventeen fields absent, UNDERSIZED. -/
def Obligations.UndersizedDecodeIsAllAbsent : Prop :=
  ∀ s : State, s.rxlen.toNat ≤ 38 →
    ∃ t, exec .decode s = .next t ∧
      (∀ f, t.result.valid f = false ∧ t.result.cause f = .undersized) ∧ AbsentReadsZero t.result ∧
      t = { s with
        result := t.result
        status := { s.status with
          lenOk := false, aCur := false, aCal := false, aCell := false, decDone := true, err := .none } }

/-- R131: with 39 bytes or more DECODE completes, every field is what its own rule says of the buffer, over a cleared
reading, the anomaly bits are those of this buffer, and nothing else changes but the scan pointer. -/
def Obligations.DecodeGivesEveryFieldItsRule : Prop :=
  ∀ s : State, 38 < s.rxlen.toNat →
    ∃ t, exec .decode s = .next t ∧ DecodesTo s t.result ∧
      (t.status.aCur = true ↔ DeadZoneEntry s) ∧
      (t.status.aCal = true ↔ UnknownCalEntry s) ∧
      (t.status.aCell = true ↔ BadLengthBlock s) ∧
      t = { s with
        sp := t.sp
        result := t.result
        status := { s.status with
          lenOk := true, aCur := t.status.aCur, aCal := t.status.aCal, aCell := t.status.aCell, decDone := true,
          err := .none } }

/-- R45: the result of a DECODE is a function of the buffer and its length alone: two states that agree on them (and on the
fixed parameters) get the same reading, guard and anomaly bits, whatever else they held. -/
def Obligations.DecodeDependsOnTheBufferAlone : Prop :=
  ∀ s s' t t' : State,
    s.cfg = s'.cfg → s.rxlen = s'.rxlen → (∀ i, i < s.rxlen.toNat → byteAt s i = byteAt s' i) →
    exec .decode s = .next t → exec .decode s' = .next t' →
    t.result = t'.result ∧ t.status.lenOk = t'.status.lenOk ∧ t.status.aCur = t'.status.aCur ∧
      t.status.aCal = t'.status.aCal ∧ t.status.aCell = t'.status.aCell

/-- R137: in a DECODE each tag's field is what its operation alone gives on the cleared reading, whatever becomes of the
other fields. -/
def Obligations.FieldsFailIndependently : Prop :=
  ∀ (s t : State) (f : FieldId), 38 < s.rxlen.toNat → f ≠ .delta → exec .decode s = .next t →
    ∃ u, exec (opOf f) { s with result := Reading.blank .notDecoded } = .next u ∧ SameField f t.result u.result

/-- R136: the order of the sixteen tag operations cannot be observed: in any order before FDELTA they leave the same state,
the internal scan pointer set aside. -/
def Obligations.TagOperationOrderIsNotObservable : Prop :=
  ∀ (fs : List FieldId) (s : State), fs.Perm tagOps →
    dropSp (runFields (fs ++ [.delta]) s) = dropSp (runFields decodeOrder s)

/-- R131, R136: the atomic DECODE is its sequence of field operations, each run by a step of its own from the cleared
reading, with DEC_DONE and ERR_NONE written at the end (the sequencer's list is log 11). -/
def Obligations.DecodeIsItsSequenceOfOperations : Prop :=
  ∀ s t : State, 38 < s.rxlen.toNat → s.seq = [] → exec .decode s = .next t →
    ∃ u, Sys2Proof.core.run 17
        { s with
          seq := decodeOrder
          result := Reading.blank .notDecoded
          status := { s.status with lenOk := true, aCur := false, aCal := false, aCell := false } } = .next u ∧
      t = { u with status.decDone := true, status.err := .none }

/-! ### Whole-machine rules -/

/-- R73, R210: every command word with operation code 5, 6 or 7 is refused with ERR_CMD and changes nothing else. -/
def Obligations.ReservedCodesAreRefused : Prop :=
  (∀ s : State, exec .reserved5 s = .next { s with status.err := .cmd } ∧
    exec .reserved6 s = .next { s with status.err := .cmd } ∧
    exec .reserved7 s = .next { s with status.err := .cmd }) ∧
  (∀ (w : BitVec 52) (s : State), 5 ≤ w.toNat % 8 →
    exec (decodeCommand w) s = .next { s with status.err := .cmd })

/-- R210: a command either is performed, with ERR_NONE, or changes STATUS.ERR and nothing else; BUILD and DECODE are always
performed. -/
def Obligations.RefusedCommandChangesOnlyErr : Prop :=
  ∀ (i : Instr) (s t : State), fieldOf i = none → exec i s = .next t →
    (t.status.err = .none ∨ t = { s with status.err := t.status.err }) ∧
    (i = .build ∨ i = .decode → t.status.err = .none)

/-- R39: which command writes which state. -/
def Obligations.EachElementHasItsWriters : Prop :=
  ∀ (i : Instr) (s t : State), fieldOf i = none → exec i s = .next t →
    (t.rxb ≠ s.rxb ∨ t.rxlen ≠ s.rxlen → ∃ n, i = .load n) ∧
    (t.txf ≠ s.txf ∨ t.status.txfValid ≠ s.status.txfValid → i = .build) ∧
    (t.csr ≠ s.csr → i = .build ∨ (∃ sel a b, i.expand = .csum sel a b) ∨ ∃ sel a b c, i.expand = .verify sel a b c) ∧
    (t.status.vok ≠ s.status.vok → ∃ sel a b c, i.expand = .verify sel a b c) ∧
    (t.result ≠ s.result ∨ t.status.lenOk ≠ s.status.lenOk ∨ t.status.aCur ≠ s.status.aCur ∨
      t.status.aCal ≠ s.status.aCal ∨ t.status.aCell ≠ s.status.aCell ∨ t.status.decDone ≠ s.status.decDone →
      i = .decode) ∧
    t.cfg = s.cfg ∧ t.cmdIn = s.cmdIn ∧ t.dataIn = s.dataIn ∧ t.seq = s.seq

/-- R52, R246: the bytes at and above RXLEN are never used: whatever they hold, an instruction other than LOAD (which reads
no byte of the buffer) does the same. -/
def Obligations.BytesBeyondTheLengthAreUnreachable : Prop :=
  ∀ (i : Instr) (s t : State) (m : Memory),
    (∀ n, i ≠ .load n) → (∀ j, j < s.rxlen.toNat → Memory.read m j = Memory.read s.rxb j) →
    exec i s = .next t → exec i { s with rxb := m } = .next { t with rxb := m }

/-- R54: repeating a command on the state it left gives that state again (LOAD, whose data are the host's, apart). -/
def Obligations.RepeatingACommandChangesNothing : Prop :=
  ∀ (i : Instr) (s t : State), fieldOf i = none → (∀ n, i ≠ .load n) → exec i s = .next t → exec i t = .next t

/-- R35, R210: STATUS bit by bit as the host reads it, bits 7 and 15:11 reading 0, and the numbers of the error codes. -/
def Obligations.StatusWordLayout : Prop :=
  (Err.none.code = 0 ∧ Err.cmd.code = 1 ∧ Err.range.code = 2 ∧ Err.uninit.code = 3) ∧
  ∀ s : Status,
    s.word.getLsbD 0 = s.lenOk ∧ s.word.getLsbD 1 = s.aCur ∧ s.word.getLsbD 2 = s.aCal ∧ s.word.getLsbD 3 = s.aCell ∧
    s.word.getLsbD 4 = s.vok ∧ s.word.getLsbD 5 = s.txfValid ∧ s.word.getLsbD 6 = s.decDone ∧
    s.word.getLsbD 7 = false ∧ s.word.extractLsb' 8 3 = s.err.code ∧
    (∀ i, 11 ≤ i → s.word.getLsbD i = false) ∧ s.err.code.toNat < 4

/-- R202: the numbers of the cause codes, all different, 7 never among them. -/
def Obligations.CauseCodesAreTheTables : Prop :=
  Cause.ok.code = 0 ∧ Cause.tagNotFound.code = 1 ∧ Cause.truncated.code = 2 ∧ Cause.outOfRange.code = 3 ∧
  Cause.undersized.code = 4 ∧ Cause.notDecoded.code = 5 ∧ Cause.emptySource.code = 6 ∧ ∀ c : Cause, c.code ≠ 7
end

