-- ==== Sys2Proof/Laws/Checksum.lean ====
section
/-! SUPPORT. The checksum unit: the accumulator as a sum modulo 2^32, the range of a source as a sum, one level of the
tree keeps the sum. -/

namespace Sys2Proof.Machine

/-- The accumulator after a pass from any start. -/
theorem foldl_acc_toNat (l : List Byte) (a : BitVec 32) :
    (l.foldl (fun acc x => acc + x.setWidth 32) a).toNat = (a.toNat + (l.map BitVec.toNat).sum) % 2 ^ 32 := by
  induction l generalizing a with
  | nil => simp; omega
  | cons x l ih =>
    rw [List.foldl_cons, ih]
    have hx : (x.setWidth 32).toNat = x.toNat := by simp; omega
    rw [BitVec.toNat_add, hx, List.map_cons, List.sum_cons]
    omega

theorem accSum_toNat_mod (l : List Byte) : (accSum l).toNat = (l.map BitVec.toNat).sum % 2 ^ 32 := by
  rw [accSum, foldl_acc_toNat]
  simp

/-- The sum of bytes is at most 255 for each. -/
theorem sum_toNat_le (l : List Byte) : (l.map BitVec.toNat).sum ≤ 255 * l.length := by
  induction l with
  | nil => simp
  | cons x l ih =>
    have := x.isLt
    simp only [List.map_cons, List.sum_cons, List.length_cons]
    omega

@[simp] theorem length_srcRange (s : State) (sel : Source) (a b : Nat) : (srcRange s sel a b).length = b - a := by
  simp [srcRange]

theorem length_treeLevel_le (l : List Nat) : (treeLevel l).length ≤ l.length := by
  induction l using treeLevel.induct with
  | case1 x y rest ih => simp only [treeLevel, List.length_cons]; omega
  | case2 x => simp [treeLevel]
  | case3 => simp [treeLevel]

/-- A level of adders keeps the sum of its nodes. -/
theorem sum_treeLevel (l : List Nat) : (treeLevel l).sum = l.sum := by
  induction l using treeLevel.induct with
  | case1 x y rest ih => simp only [treeLevel, List.sum_cons, ih]; omega
  | case2 x => simp [treeLevel]
  | case3 => simp [treeLevel]

theorem length_treeLevel (l : List Nat) : (treeLevel l).length = (l.length + 1) / 2 := by
  induction l using treeLevel.induct with
  | case1 x y rest ih => simp only [treeLevel, List.length_cons, ih]; omega
  | case2 x => simp [treeLevel]
  | case3 => simp [treeLevel]

theorem sum_treeLevels (j : Nat) (l : List Nat) : (treeLevels j l).sum = l.sum := by
  induction j with
  | zero => rfl
  | succ j ih => rw [treeLevels, sum_treeLevel, ih]

theorem frameAcc_eq : frameAcc = 0x129 := by decide

/-- The frame as R122 lists it. -/
theorem frameBytes_eq :
    frameBytes =
      #v[0x4E, 0x57, 0x00, 0x13, 0x00, 0x00, 0x00, 0x00, 0x06, 0x03, 0x00, 0x00, 0x00, 0x00, 0x00, 0x00, 0x68, 0x00, 0x00,
        0x01, 0x29] := by decide

theorem be16_toNat (h l : Byte) : (be16 h l).toNat = h.toNat * 256 + l.toNat := by
  have := Nat.shiftLeft_add_eq_or_of_lt l.isLt h.toNat
  rw [be16, BitVec.toNat_append, ← this, Nat.shiftLeft_eq]

/-- The accumulator over a range of a source, as a sum over its indices; it does not overflow (R102). -/
theorem sum_srcRange (s : State) (sel : Source) (a b : Nat) :
    ((srcRange s sel a b).map BitVec.toNat).sum = ∑ i ∈ Finset.Ico a b, (srcByte s sel i).toNat := by
  rw [srcRange, List.map_map]
  by_cases h : a ≤ b
  · obtain ⟨n, rfl⟩ := Nat.exists_eq_add_of_le h
    have e : a + n - a = n := by omega
    rw [e]
    clear e h
    induction n with
    | zero => simp
    | succ n ih =>
      rw [List.range'_concat, List.map_append, List.sum_append, ih, ← Nat.add_assoc, Finset.sum_Ico_succ_top (by omega)]
      simp
  · have e : b - a = 0 := by omega
    rw [e, Finset.Ico_eq_empty (by omega)]
    simp

end Sys2Proof.Machine
end

