-- ==== Sys2Proof/Laws/Decode.lean ====
section
/-! SUPPORT. Lemmas of the decoder and encoder: the fields of a packed command word, the fields of a word as quotients, and
that a pseudo-command's name does not change what it expands to. -/

namespace Sys2Proof

variable (op : BitVec 3) (sel : BitVec 1) (a b c : U16)

@[simp] theorem cwOp_packCW : cwOp (packCW op sel a b c) = op := by
  apply BitVec.eq_of_getLsbD_eq
  intro i hi
  simp only [cwOp, packCW, BitVec.getLsbD_extractLsb', BitVec.getLsbD_append]
  simp [hi]

@[simp] theorem cwSel_packCW : cwSel (packCW op sel a b c) = sel := by
  apply BitVec.eq_of_getLsbD_eq
  intro i hi
  simp only [cwSel, packCW, BitVec.getLsbD_extractLsb', BitVec.getLsbD_append]
  obtain rfl : i = 0 := by omega
  simp

@[simp] theorem cwA_packCW : cwA (packCW op sel a b c) = a := by
  apply BitVec.eq_of_getLsbD_eq
  intro i hi
  simp only [cwA, packCW, BitVec.getLsbD_extractLsb', BitVec.getLsbD_append]
  have h1 : ¬ 4 + i < 3 := by omega
  have h2 : ¬ 4 + i - 3 < 1 := by omega
  have h3 : 4 + i - 3 - 1 = i := by omega
  simp [h1, h2, h3, hi]

@[simp] theorem cwB_packCW : cwB (packCW op sel a b c) = b := by
  apply BitVec.eq_of_getLsbD_eq
  intro i hi
  simp only [cwB, packCW, BitVec.getLsbD_extractLsb', BitVec.getLsbD_append]
  have h1 : ¬ 20 + i < 3 := by omega
  have h2 : ¬ 20 + i - 3 < 1 := by omega
  have h3 : ¬ 20 + i - 3 - 1 < 16 := by omega
  have h4 : 20 + i - 3 - 1 - 16 = i := by omega
  simp [h1, h2, h3, h4, hi]

@[simp] theorem cwC_packCW : cwC (packCW op sel a b c) = c := by
  apply BitVec.eq_of_getLsbD_eq
  intro i hi
  simp only [cwC, packCW, BitVec.getLsbD_extractLsb', BitVec.getLsbD_append]
  have h1 : ¬ 36 + i < 3 := by omega
  have h2 : ¬ 36 + i - 3 < 1 := by omega
  have h3 : ¬ 36 + i - 3 - 1 < 16 := by omega
  have h4 : ¬ 36 + i - 3 - 1 - 16 < 16 := by omega
  have h5 : 36 + i - 3 - 1 - 16 - 16 = i := by omega
  simp [h1, h2, h3, h4, h5, hi]

@[simp] theorem sourceOf_selBit (sel : Source) : sourceOf (selBit sel) = sel := by cases sel <;> rfl

theorem cwOp_toNat (w : BitVec 52) : (cwOp w).toNat = w.toNat % 8 := by simp [cwOp]

theorem cwA_eq_ofNat (w : BitVec 52) : cwA w = BitVec.ofNat 16 (w.toNat / 2 ^ 4) := by
  apply BitVec.eq_of_toNat_eq
  simp [cwA, Nat.shiftRight_eq_div_pow]

theorem cwB_eq_ofNat (w : BitVec 52) : cwB w = BitVec.ofNat 16 (w.toNat / 2 ^ 20) := by
  apply BitVec.eq_of_toNat_eq
  simp [cwB, Nat.shiftRight_eq_div_pow]

theorem cwC_eq_ofNat (w : BitVec 52) : cwC w = BitVec.ofNat 16 (w.toNat / 2 ^ 36) := by
  apply BitVec.eq_of_toNat_eq
  simp [cwC, Nat.shiftRight_eq_div_pow]

theorem sourceOf_cwSel (w : BitVec 52) : sourceOf (cwSel w) = if w.toNat / 8 % 2 = 0 then .txf else .rxb := by
  have h : (cwSel w).toNat = w.toNat / 8 % 2 := by simp [cwSel, Nat.shiftRight_eq_div_pow]
  unfold sourceOf
  rw [← h]
  congr 1
  simp [BitVec.toNat_eq]

/-- Naming a pseudo-command and writing it out again changes nothing (R86). -/
@[simp] theorem expand_named (i : Instr) : i.named.expand = i.expand := by
  cases i <;> simp only [Instr.named]
  · split
    · simp_all [isCsumall, Instr.expand]
    · rfl
  · split
    · simp_all [isChkframe, Instr.expand]
    · rfl

end Sys2Proof
end

