-- ==== Sys2Proof/Laws/Memory.lean ====
section
/-! SUPPORT. The response buffer: what a write does to a read, and that every write keeps the canonical form. -/

namespace Sys2Proof.Machine

theorem Memory.read_nil (i : Nat) : Memory.read [] i = unwritten := rfl

theorem Memory.read_cons (a : Nat) (v : Byte) (m : Memory) (i : Nat) :
    Memory.read ((a, v) :: m) i = if a = i then v else Memory.read m i := rfl

/-- An index below every listed one reads as unwritten. -/
theorem Memory.read_below {m : Memory} {i : Nat} (h : ∀ c ∈ m, i < c.1) : Memory.read m i = unwritten := by
  induction m with
  | nil => rfl
  | cons c m ih =>
    have hc := h c (by simp)
    rw [Memory.read_cons, if_neg (by omega)]
    exact ih fun d hd => h d (by simp [hd])

theorem Memory.wf_nil : Memory.wf [] := by simp [Memory.wf]

theorem Memory.wf_tail {c : Host.Cell} {m : Memory} (h : Memory.wf (c :: m)) : Memory.wf m :=
  ⟨(List.pairwise_cons.1 h.1).2, fun d hd => h.2 d (by simp [hd])⟩

theorem Memory.wf_head {c : Host.Cell} {m : Memory} (h : Memory.wf (c :: m)) : ∀ d ∈ m, c.1 < d.1 :=
  (List.pairwise_cons.1 h.1).1

/-- Every cell of a memory after a write was there before or is the one written. -/
theorem Memory.mem_write {m : Memory} {i : Nat} {v : Byte} {c : Host.Cell} (h : c ∈ Memory.write m i v) :
    c ∈ m ∨ c = (i, v) := by
  induction m with
  | nil =>
    simp only [Memory.write] at h
    split at h <;> simp_all
  | cons d m ih =>
    obtain ⟨a, w⟩ := d
    simp only [Memory.write] at h
    split at h
    · split at h
      · exact .inl h
      · rcases List.mem_cons.1 h with rfl | h'
        · exact .inr rfl
        · exact .inl h'
    · split at h
      · split at h
        · exact .inl (by simp [h])
        · rcases List.mem_cons.1 h with rfl | h'
          · exact .inr (by simp_all)
          · exact .inl (by simp [h'])
      · rcases List.mem_cons.1 h with rfl | h'
        · simp
        · rcases ih h' with h'' | h'' <;> simp [h'']

/-- A write keeps the canonical form. -/
theorem Memory.write_wf {m : Memory} (h : Memory.wf m) (i : Nat) (v : Byte) : Memory.wf (Memory.write m i v) := by
  induction m with
  | nil =>
    simp only [Memory.write]
    split
    · exact Memory.wf_nil
    · rename_i hv
      exact ⟨by simp, by simpa using hv⟩
  | cons d m ih =>
    obtain ⟨a, w⟩ := d
    have hw : w ≠ unwritten := h.2 (a, w) (by simp)
    have ht := Memory.wf_tail h
    have hh := Memory.wf_head h
    simp only [Memory.write]
    split
    · rename_i hia
      split
      · exact h
      · rename_i hv
        refine ⟨List.pairwise_cons.2 ⟨?_, h.1⟩, ?_⟩
        · intro c hc
          rcases List.mem_cons.1 hc with rfl | hc
          · exact hia
          · exact Nat.lt_trans hia (hh c hc)
        · intro c hc
          rcases List.mem_cons.1 hc with rfl | hc
          · exact hv
          · exact h.2 c hc
    · split
      · split
        · exact ht
        · rename_i hv
          refine ⟨List.pairwise_cons.2 ⟨hh, ht.1⟩, ?_⟩
          intro c hc
          rcases List.mem_cons.1 hc with rfl | hc
          · exact hv
          · exact ht.2 c hc
      · rename_i h1 h2
        have hi := ih ht
        refine ⟨List.pairwise_cons.2 ⟨?_, hi.1⟩, ?_⟩
        · intro c hc
          rcases Memory.mem_write hc with hc | rfl
          · exact hh c hc
          · show a < i
            omega
        · intro c hc
          rcases List.mem_cons.1 hc with rfl | hc
          · exact hw
          · exact hi.2 c hc

/-- A read after a write gives the value written at its index and what was there anywhere else. -/
theorem Memory.read_write {m : Memory} (h : Memory.wf m) (i j : Nat) (v : Byte) :
    Memory.read (Memory.write m i v) j = if j = i then v else Memory.read m j := by
  induction m with
  | nil =>
    simp only [Memory.write]
    split
    · rename_i hv
      subst hv
      simp [Memory.read]
    · simp [Memory.read, eq_comm]
  | cons d m ih =>
    obtain ⟨a, w⟩ := d
    have ht := Memory.wf_tail h
    have hh := Memory.wf_head h
    simp only [Memory.write]
    split
    · rename_i hia
      split
      · rename_i hv
        by_cases hj : j = i
        · rw [if_pos hj, hv]
          apply Memory.read_below
          intro c hc
          rcases List.mem_cons.1 hc with rfl | hc
          · simpa [hj] using hia
          · have : a < c.1 := hh c hc
            omega
        · rw [if_neg hj]
      · rw [Memory.read_cons i]
        simp only [eq_comm]
    · split
      · rename_i h1 h2
        subst h2
        split
        · rename_i hv
          by_cases hj : j = i
          · rw [if_pos hj, hv]
            apply Memory.read_below
            intro c hc
            simpa [hj] using hh c hc
          · rw [if_neg hj, Memory.read_cons, if_neg (fun e => hj e.symm)]
        · simp only [Memory.read_cons]
          by_cases hj : j = i
          · simp [hj]
          · rw [if_neg hj, if_neg (fun e => hj e.symm), if_neg (fun e => hj e.symm)]
      · rename_i h1 h2
        simp only [Memory.read_cons]
        rw [ih ht]
        by_cases hj : a = j
        · rw [if_pos hj, if_pos hj, if_neg]
          omega
        · rw [if_neg hj, if_neg hj]

theorem Memory.writeBytes_nil (m : Memory) (i : Nat) : Memory.writeBytes m i [] = m := rfl

theorem Memory.writeBytes_cons (m : Memory) (i : Nat) (d : Byte) (ds : List Byte) :
    Memory.writeBytes m i (d :: ds) = Memory.writeBytes (Memory.write m i d) (i + 1) ds := rfl

/-- Writing consecutive bytes keeps the canonical form. -/
theorem Memory.writeBytes_wf {m : Memory} (h : Memory.wf m) (i : Nat) (ds : List Byte) :
    Memory.wf (Memory.writeBytes m i ds) := by
  induction ds generalizing m i with
  | nil => exact h
  | cons d ds ih => exact ih (Memory.write_wf h i d) (i + 1)

/-- Every cell after writing consecutive bytes was there before or lies among the indices written. -/
theorem Memory.mem_writeBytes {m : Memory} {i : Nat} {ds : List Byte} {c : Host.Cell}
    (h : c ∈ Memory.writeBytes m i ds) : c ∈ m ∨ i ≤ c.1 ∧ c.1 < i + ds.length := by
  induction ds generalizing m i with
  | nil => exact .inl h
  | cons d ds ih =>
    rcases ih h with h' | h'
    · rcases Memory.mem_write h' with h'' | rfl
      · exact .inl h''
      · exact .inr ⟨Nat.le_refl _, by simp⟩
    · exact .inr ⟨by omega, by simp only [List.length_cons]; omega⟩

/-- A read after writing consecutive bytes: the byte written at that index, or what was there before. -/
theorem Memory.read_writeBytes {m : Memory} (h : Memory.wf m) (i j : Nat) (ds : List Byte) :
    Memory.read (Memory.writeBytes m i ds) j =
      if i ≤ j ∧ j < i + ds.length then ds.getD (j - i) 0 else Memory.read m j := by
  induction ds generalizing m i with
  | nil =>
    rw [Memory.writeBytes_nil, if_neg]
    simp only [List.length_nil]
    omega
  | cons d ds ih =>
    rw [Memory.writeBytes_cons, ih (Memory.write_wf h i d), Memory.read_write h]
    simp only [List.length_cons]
    by_cases hj : j = i
    · subst hj
      simp
    · by_cases hr : i + 1 ≤ j ∧ j < i + 1 + ds.length
      · rw [if_pos hr, if_pos (by omega)]
        obtain ⟨k, rfl⟩ : ∃ k, j = i + 1 + k := ⟨j - (i + 1), by omega⟩
        have e1 : i + 1 + k - (i + 1) = k := by omega
        have e2 : i + 1 + k - i = k + 1 := by omega
        rw [e1, e2, List.getD_cons_succ]
      · rw [if_neg hr, if_neg hj, if_neg (by omega)]

@[simp] theorem Memory.length_readBytes (m : Memory) (addr n : Nat) : (Memory.readBytes m addr n).length = n := by
  simp [Memory.readBytes]

/-- Byte `i` of a `MemRead` (R52). -/
theorem Memory.getD_readBytes (m : Memory) (addr n i : Nat) (h : i < n) :
    (Memory.readBytes m addr n).getD i 0 = Memory.read m (addr + i) := by
  simp [Memory.readBytes, List.getD_eq_getElem?_getD, h]

end Sys2Proof.Machine
end

