-- ==== Sys2Proof/Laws/Search.lean ====
section
/-! SUPPORT. The tag search and the extraction protocol: what they answer, and what they depend on. -/

namespace Sys2Proof.Machine

/-- What the loop of R132 finds from index `i` on. -/
theorem findFrom_eq_some {m : Memory} {t : Byte} {n i p : Nat} :
    findFrom m t n i = some p ↔
      (i ≤ p ∧ p < i + n) ∧ Memory.read m p = t ∧ ∀ q, i ≤ q → q < p → Memory.read m q ≠ t := by
  induction n generalizing i with
  | zero =>
    simp only [findFrom]
    constructor
    · intro h; cases h
    · rintro ⟨⟨h1, h2⟩, -⟩; omega
  | succ n ih =>
    simp only [findFrom]
    split
    · rename_i ht
      constructor
      · rintro h
        cases h
        exact ⟨⟨Nat.le_refl _, by omega⟩, ht, fun q h1 h2 => by omega⟩
      · rintro ⟨⟨h1, h2⟩, h3, h4⟩
        by_cases hp : p = i
        · rw [hp]
        · exact absurd ht (h4 i (Nat.le_refl _) (by omega))
    · rename_i ht
      rw [ih]
      constructor
      · rintro ⟨⟨h1, h2⟩, h3, h4⟩
        refine ⟨⟨by omega, by omega⟩, h3, fun q hq1 hq2 => ?_⟩
        by_cases hq : q = i
        · rw [hq]; exact ht
        · exact h4 q (by omega) hq2
      · rintro ⟨⟨h1, h2⟩, h3, h4⟩
        have hp : p ≠ i := fun e => ht (e ▸ h3)
        exact ⟨⟨by omega, by omega⟩, h3, fun q hq1 hq2 => h4 q (by omega) hq2⟩

theorem findFrom_eq_none {m : Memory} {t : Byte} {n i : Nat} :
    findFrom m t n i = none ↔ ∀ q, i ≤ q → q < i + n → Memory.read m q ≠ t := by
  induction n generalizing i with
  | zero => simp only [findFrom, true_iff]; intro q h1 h2; omega
  | succ n ih =>
    simp only [findFrom]
    split
    · rename_i ht
      constructor
      · intro h; cases h
      · intro h; exact absurd ht (h i (Nat.le_refl _) (by omega))
    · rename_i ht
      rw [ih]
      constructor
      · intro h q h1 h2
        by_cases hq : q = i
        · rw [hq]; exact ht
        · exact h q (by omega) (by omega)
      · intro h q h1 h2
        exact h q (by omega) (by omega)

/-- The search looks at the bytes below `len` only. -/
theorem findFrom_congr {m m' : Memory} {t : Byte} {n i : Nat}
    (h : ∀ q, i ≤ q → q < i + n → Memory.read m q = Memory.read m' q) : findFrom m t n i = findFrom m' t n i := by
  induction n generalizing i with
  | zero => rfl
  | succ n ih =>
    simp only [findFrom]
    rw [h i (Nat.le_refl _) (by omega), ih fun q h1 h2 => h q (by omega) (by omega)]

theorem find_lt {m : Memory} {len : Nat} {t : Byte} {p : Nat} (h : find m len t = some p) : p < len := by
  have := (findFrom_eq_some.1 h).1.2
  omega

theorem find_congr {m m' : Memory} {len : Nat} {t : Byte}
    (h : ∀ q, q < len → Memory.read m q = Memory.read m' q) : find m len t = find m' len t :=
  findFrom_congr fun q _ h2 => h q (by omega)

/-- Every answer of `extract`: the two soft failures, or the payload of the first occurrence (R133, R134). -/
theorem extract_cases (m : Memory) (len : Nat) (t : Byte) (k : Nat) :
    (find m len t = none ∧ extract m len t k = .error .tagNotFound) ∨
    (∃ p, find m len t = some p ∧ len ≤ p + k ∧ extract m len t k = .error .truncated) ∨
    (∃ p, find m len t = some p ∧ p + k < len ∧ extract m len t k = .ok (Memory.readBytes m (p + 1) k)) := by
  unfold extract
  cases hf : find m len t with
  | none => exact .inl ⟨rfl, rfl⟩
  | some p =>
    by_cases hk : p + k ≥ len
    · exact .inr (.inl ⟨p, rfl, hk, by simp [hk]⟩)
    · exact .inr (.inr ⟨p, rfl, by omega, by simp [hk]⟩)

theorem readBytes_congr {m m' : Memory} {addr n : Nat}
    (h : ∀ q, addr ≤ q → q < addr + n → Memory.read m q = Memory.read m' q) :
    Memory.readBytes m addr n = Memory.readBytes m' addr n := by
  unfold Memory.readBytes
  apply List.map_congr_left
  intro q hq
  rw [List.mem_range'_1] at hq
  exact h q hq.1 hq.2

/-- Extraction looks at the bytes below `len` only (R52). -/
theorem extract_congr {m m' : Memory} {len : Nat} {t : Byte} {k : Nat}
    (h : ∀ q, q < len → Memory.read m q = Memory.read m' q) : extract m len t k = extract m' len t k := by
  unfold extract
  rw [find_congr h]
  cases hf : find m' len t with
  | none => rfl
  | some p =>
    dsimp only
    split
    · rfl
    · rw [readBytes_congr fun q h1 h2 => h q (by omega)]

theorem spAfter_congr {m m' : Memory} {len : U16} {t : Byte}
    (h : ∀ q, q < len.toNat → Memory.read m q = Memory.read m' q) : spAfter m len t = spAfter m' len t := by
  unfold spAfter
  rw [find_congr h]

end Sys2Proof.Machine
end

