-- ==== Sys2Proof/Laws/State.lean ====
section
/-! SUPPORT. One lemma per field per named update of State, each true by rfl, so that no proof unfolds an update. -/

namespace Sys2Proof.Machine

variable (s : State)

/-! ### setErr -/

@[simp] theorem State.setErr_cfg (e : Err) : (s.setErr e).cfg = s.cfg := rfl
@[simp] theorem State.setErr_rxb (e : Err) : (s.setErr e).rxb = s.rxb := rfl
@[simp] theorem State.setErr_rxlen (e : Err) : (s.setErr e).rxlen = s.rxlen := rfl
@[simp] theorem State.setErr_txf (e : Err) : (s.setErr e).txf = s.txf := rfl
@[simp] theorem State.setErr_csr (e : Err) : (s.setErr e).csr = s.csr := rfl
@[simp] theorem State.setErr_result (e : Err) : (s.setErr e).result = s.result := rfl
@[simp] theorem State.setErr_status (e : Err) : (s.setErr e).status = { s.status with err := e } := rfl
@[simp] theorem State.setErr_sp (e : Err) : (s.setErr e).sp = s.sp := rfl
@[simp] theorem State.setErr_acc (e : Err) : (s.setErr e).acc = s.acc := rfl
@[simp] theorem State.setErr_cmdIn (e : Err) : (s.setErr e).cmdIn = s.cmdIn := rfl
@[simp] theorem State.setErr_dataIn (e : Err) : (s.setErr e).dataIn = s.dataIn := rfl
@[simp] theorem State.setErr_seq (e : Err) : (s.setErr e).seq = s.seq := rfl

/-! ### accept -/

@[simp] theorem State.accept_cfg (c : HostCommand) (rest : List HostCommand) : (s.accept c rest).cfg = s.cfg := rfl
@[simp] theorem State.accept_rxb (c : HostCommand) (rest : List HostCommand) : (s.accept c rest).rxb = s.rxb := rfl
@[simp] theorem State.accept_rxlen (c : HostCommand) (rest : List HostCommand) : (s.accept c rest).rxlen = s.rxlen := rfl
@[simp] theorem State.accept_txf (c : HostCommand) (rest : List HostCommand) : (s.accept c rest).txf = s.txf := rfl
@[simp] theorem State.accept_csr (c : HostCommand) (rest : List HostCommand) : (s.accept c rest).csr = s.csr := rfl
@[simp] theorem State.accept_result (c : HostCommand) (rest : List HostCommand) : (s.accept c rest).result = s.result := rfl
@[simp] theorem State.accept_status (c : HostCommand) (rest : List HostCommand) : (s.accept c rest).status = s.status := rfl
@[simp] theorem State.accept_sp (c : HostCommand) (rest : List HostCommand) : (s.accept c rest).sp = s.sp := rfl
@[simp] theorem State.accept_acc (c : HostCommand) (rest : List HostCommand) : (s.accept c rest).acc = s.acc := rfl
@[simp] theorem State.accept_cmdIn (c : HostCommand) (rest : List HostCommand) : (s.accept c rest).cmdIn = rest := rfl
@[simp] theorem State.accept_dataIn (c : HostCommand) (rest : List HostCommand) : (s.accept c rest).dataIn = c.data := rfl
@[simp] theorem State.accept_seq (c : HostCommand) (rest : List HostCommand) : (s.accept c rest).seq = s.seq := rfl

/-! ### release -/

@[simp] theorem State.release_cfg : (s.release).cfg = s.cfg := rfl
@[simp] theorem State.release_rxb : (s.release).rxb = s.rxb := rfl
@[simp] theorem State.release_rxlen : (s.release).rxlen = s.rxlen := rfl
@[simp] theorem State.release_txf : (s.release).txf = s.txf := rfl
@[simp] theorem State.release_csr : (s.release).csr = s.csr := rfl
@[simp] theorem State.release_result : (s.release).result = s.result := rfl
@[simp] theorem State.release_status : (s.release).status = s.status := rfl
@[simp] theorem State.release_sp : (s.release).sp = s.sp := rfl
@[simp] theorem State.release_acc : (s.release).acc = s.acc := rfl
@[simp] theorem State.release_cmdIn : (s.release).cmdIn = s.cmdIn := rfl
@[simp] theorem State.release_dataIn : (s.release).dataIn = [] := rfl
@[simp] theorem State.release_seq : (s.release).seq = s.seq := rfl

/-! ### takeOp -/

@[simp] theorem State.takeOp_cfg (rest : List FieldId) : (s.takeOp rest).cfg = s.cfg := rfl
@[simp] theorem State.takeOp_rxb (rest : List FieldId) : (s.takeOp rest).rxb = s.rxb := rfl
@[simp] theorem State.takeOp_rxlen (rest : List FieldId) : (s.takeOp rest).rxlen = s.rxlen := rfl
@[simp] theorem State.takeOp_txf (rest : List FieldId) : (s.takeOp rest).txf = s.txf := rfl
@[simp] theorem State.takeOp_csr (rest : List FieldId) : (s.takeOp rest).csr = s.csr := rfl
@[simp] theorem State.takeOp_result (rest : List FieldId) : (s.takeOp rest).result = s.result := rfl
@[simp] theorem State.takeOp_status (rest : List FieldId) : (s.takeOp rest).status = s.status := rfl
@[simp] theorem State.takeOp_sp (rest : List FieldId) : (s.takeOp rest).sp = s.sp := rfl
@[simp] theorem State.takeOp_acc (rest : List FieldId) : (s.takeOp rest).acc = s.acc := rfl
@[simp] theorem State.takeOp_cmdIn (rest : List FieldId) : (s.takeOp rest).cmdIn = s.cmdIn := rfl
@[simp] theorem State.takeOp_dataIn (rest : List FieldId) : (s.takeOp rest).dataIn = s.dataIn := rfl
@[simp] theorem State.takeOp_seq (rest : List FieldId) : (s.takeOp rest).seq = rest := rfl

/-! ### sumInto -/

@[simp] theorem State.sumInto_cfg (sel : Source) (a b : U16) : (s.sumInto sel a b).cfg = s.cfg := rfl
@[simp] theorem State.sumInto_rxb (sel : Source) (a b : U16) : (s.sumInto sel a b).rxb = s.rxb := rfl
@[simp] theorem State.sumInto_rxlen (sel : Source) (a b : U16) : (s.sumInto sel a b).rxlen = s.rxlen := rfl
@[simp] theorem State.sumInto_txf (sel : Source) (a b : U16) : (s.sumInto sel a b).txf = s.txf := rfl
@[simp] theorem State.sumInto_csr (sel : Source) (a b : U16) : (s.sumInto sel a b).csr = (accSum (srcRange s sel a.toNat b.toNat)).setWidth 16 := rfl
@[simp] theorem State.sumInto_result (sel : Source) (a b : U16) : (s.sumInto sel a b).result = s.result := rfl
@[simp] theorem State.sumInto_status (sel : Source) (a b : U16) : (s.sumInto sel a b).status = s.status := rfl
@[simp] theorem State.sumInto_sp (sel : Source) (a b : U16) : (s.sumInto sel a b).sp = s.sp := rfl
@[simp] theorem State.sumInto_acc (sel : Source) (a b : U16) : (s.sumInto sel a b).acc = accSum (srcRange s sel a.toNat b.toNat) := rfl
@[simp] theorem State.sumInto_cmdIn (sel : Source) (a b : U16) : (s.sumInto sel a b).cmdIn = s.cmdIn := rfl
@[simp] theorem State.sumInto_dataIn (sel : Source) (a b : U16) : (s.sumInto sel a b).dataIn = s.dataIn := rfl
@[simp] theorem State.sumInto_seq (sel : Source) (a b : U16) : (s.sumInto sel a b).seq = s.seq := rfl

/-! ### setVok -/

@[simp] theorem State.setVok_cfg (sel : Source) (c : U16) : (s.setVok sel c).cfg = s.cfg := rfl
@[simp] theorem State.setVok_rxb (sel : Source) (c : U16) : (s.setVok sel c).rxb = s.rxb := rfl
@[simp] theorem State.setVok_rxlen (sel : Source) (c : U16) : (s.setVok sel c).rxlen = s.rxlen := rfl
@[simp] theorem State.setVok_txf (sel : Source) (c : U16) : (s.setVok sel c).txf = s.txf := rfl
@[simp] theorem State.setVok_csr (sel : Source) (c : U16) : (s.setVok sel c).csr = s.csr := rfl
@[simp] theorem State.setVok_result (sel : Source) (c : U16) : (s.setVok sel c).result = s.result := rfl
@[simp] theorem State.setVok_status (sel : Source) (c : U16) : (s.setVok sel c).status = { s.status with vok := verifyOk s sel c.toNat } := rfl
@[simp] theorem State.setVok_sp (sel : Source) (c : U16) : (s.setVok sel c).sp = s.sp := rfl
@[simp] theorem State.setVok_acc (sel : Source) (c : U16) : (s.setVok sel c).acc = s.acc := rfl
@[simp] theorem State.setVok_cmdIn (sel : Source) (c : U16) : (s.setVok sel c).cmdIn = s.cmdIn := rfl
@[simp] theorem State.setVok_dataIn (sel : Source) (c : U16) : (s.setVok sel c).dataIn = s.dataIn := rfl
@[simp] theorem State.setVok_seq (sel : Source) (c : U16) : (s.setVok sel c).seq = s.seq := rfl

/-! ### build -/

@[simp] theorem State.build_cfg : (s.build).cfg = s.cfg := rfl
@[simp] theorem State.build_rxb : (s.build).rxb = s.rxb := rfl
@[simp] theorem State.build_rxlen : (s.build).rxlen = s.rxlen := rfl
@[simp] theorem State.build_txf : (s.build).txf = frameBytes := rfl
@[simp] theorem State.build_csr : (s.build).csr = frameAcc.setWidth 16 := rfl
@[simp] theorem State.build_result : (s.build).result = s.result := rfl
@[simp] theorem State.build_status : (s.build).status = { s.status with txfValid := true } := rfl
@[simp] theorem State.build_sp : (s.build).sp = s.sp := rfl
@[simp] theorem State.build_acc : (s.build).acc = frameAcc := rfl
@[simp] theorem State.build_cmdIn : (s.build).cmdIn = s.cmdIn := rfl
@[simp] theorem State.build_dataIn : (s.build).dataIn = s.dataIn := rfl
@[simp] theorem State.build_seq : (s.build).seq = s.seq := rfl

/-! ### loadBytes -/

@[simp] theorem State.loadBytes_cfg (n : U16) : (s.loadBytes n).cfg = s.cfg := rfl
@[simp] theorem State.loadBytes_rxb (n : U16) : (s.loadBytes n).rxb = Memory.writeBytes s.rxb 0 s.dataIn := rfl
@[simp] theorem State.loadBytes_rxlen (n : U16) : (s.loadBytes n).rxlen = n := rfl
@[simp] theorem State.loadBytes_txf (n : U16) : (s.loadBytes n).txf = s.txf := rfl
@[simp] theorem State.loadBytes_csr (n : U16) : (s.loadBytes n).csr = s.csr := rfl
@[simp] theorem State.loadBytes_result (n : U16) : (s.loadBytes n).result = s.result := rfl
@[simp] theorem State.loadBytes_status (n : U16) : (s.loadBytes n).status = s.status := rfl
@[simp] theorem State.loadBytes_sp (n : U16) : (s.loadBytes n).sp = s.sp := rfl
@[simp] theorem State.loadBytes_acc (n : U16) : (s.loadBytes n).acc = s.acc := rfl
@[simp] theorem State.loadBytes_cmdIn (n : U16) : (s.loadBytes n).cmdIn = s.cmdIn := rfl
@[simp] theorem State.loadBytes_dataIn (n : U16) : (s.loadBytes n).dataIn = s.dataIn := rfl
@[simp] theorem State.loadBytes_seq (n : U16) : (s.loadBytes n).seq = s.seq := rfl

/-! ### setLenOk -/

@[simp] theorem State.setLenOk_cfg (b : Bool) : (s.setLenOk b).cfg = s.cfg := rfl
@[simp] theorem State.setLenOk_rxb (b : Bool) : (s.setLenOk b).rxb = s.rxb := rfl
@[simp] theorem State.setLenOk_rxlen (b : Bool) : (s.setLenOk b).rxlen = s.rxlen := rfl
@[simp] theorem State.setLenOk_txf (b : Bool) : (s.setLenOk b).txf = s.txf := rfl
@[simp] theorem State.setLenOk_csr (b : Bool) : (s.setLenOk b).csr = s.csr := rfl
@[simp] theorem State.setLenOk_result (b : Bool) : (s.setLenOk b).result = s.result := rfl
@[simp] theorem State.setLenOk_status (b : Bool) : (s.setLenOk b).status = { s.status with lenOk := b } := rfl
@[simp] theorem State.setLenOk_sp (b : Bool) : (s.setLenOk b).sp = s.sp := rfl
@[simp] theorem State.setLenOk_acc (b : Bool) : (s.setLenOk b).acc = s.acc := rfl
@[simp] theorem State.setLenOk_cmdIn (b : Bool) : (s.setLenOk b).cmdIn = s.cmdIn := rfl
@[simp] theorem State.setLenOk_dataIn (b : Bool) : (s.setLenOk b).dataIn = s.dataIn := rfl
@[simp] theorem State.setLenOk_seq (b : Bool) : (s.setLenOk b).seq = s.seq := rfl

/-! ### finishDecode -/

@[simp] theorem State.finishDecode_cfg : (s.finishDecode).cfg = s.cfg := rfl
@[simp] theorem State.finishDecode_rxb : (s.finishDecode).rxb = s.rxb := rfl
@[simp] theorem State.finishDecode_rxlen : (s.finishDecode).rxlen = s.rxlen := rfl
@[simp] theorem State.finishDecode_txf : (s.finishDecode).txf = s.txf := rfl
@[simp] theorem State.finishDecode_csr : (s.finishDecode).csr = s.csr := rfl
@[simp] theorem State.finishDecode_result : (s.finishDecode).result = s.result := rfl
@[simp] theorem State.finishDecode_status : (s.finishDecode).status = { s.status with decDone := true, err := .none } := rfl
@[simp] theorem State.finishDecode_sp : (s.finishDecode).sp = s.sp := rfl
@[simp] theorem State.finishDecode_acc : (s.finishDecode).acc = s.acc := rfl
@[simp] theorem State.finishDecode_cmdIn : (s.finishDecode).cmdIn = s.cmdIn := rfl
@[simp] theorem State.finishDecode_dataIn : (s.finishDecode).dataIn = s.dataIn := rfl
@[simp] theorem State.finishDecode_seq : (s.finishDecode).seq = s.seq := rfl

/-! ### absentAll -/

@[simp] theorem State.absentAll_cfg : (s.absentAll).cfg = s.cfg := rfl
@[simp] theorem State.absentAll_rxb : (s.absentAll).rxb = s.rxb := rfl
@[simp] theorem State.absentAll_rxlen : (s.absentAll).rxlen = s.rxlen := rfl
@[simp] theorem State.absentAll_txf : (s.absentAll).txf = s.txf := rfl
@[simp] theorem State.absentAll_csr : (s.absentAll).csr = s.csr := rfl
@[simp] theorem State.absentAll_result : (s.absentAll).result = s.result.absentAll .undersized := rfl
@[simp] theorem State.absentAll_status : (s.absentAll).status = s.status := rfl
@[simp] theorem State.absentAll_sp : (s.absentAll).sp = s.sp := rfl
@[simp] theorem State.absentAll_acc : (s.absentAll).acc = s.acc := rfl
@[simp] theorem State.absentAll_cmdIn : (s.absentAll).cmdIn = s.cmdIn := rfl
@[simp] theorem State.absentAll_dataIn : (s.absentAll).dataIn = s.dataIn := rfl
@[simp] theorem State.absentAll_seq : (s.absentAll).seq = s.seq := rfl

/-! ### prologue -/

@[simp] theorem prologue_cfg : (prologue s).cfg = s.cfg := rfl
@[simp] theorem prologue_rxb : (prologue s).rxb = s.rxb := rfl
@[simp] theorem prologue_rxlen : (prologue s).rxlen = s.rxlen := rfl
@[simp] theorem prologue_txf : (prologue s).txf = s.txf := rfl
@[simp] theorem prologue_csr : (prologue s).csr = s.csr := rfl
@[simp] theorem prologue_result : (prologue s).result = Reading.blank .notDecoded := rfl
@[simp] theorem prologue_status : (prologue s).status = s.status.clearAnomalies := rfl
@[simp] theorem prologue_sp : (prologue s).sp = s.sp := rfl
@[simp] theorem prologue_acc : (prologue s).acc = s.acc := rfl
@[simp] theorem prologue_cmdIn : (prologue s).cmdIn = s.cmdIn := rfl
@[simp] theorem prologue_dataIn : (prologue s).dataIn = s.dataIn := rfl
@[simp] theorem prologue_seq : (prologue s).seq = s.seq := rfl

/-! ### The field operations: what none of them touches -/

@[simp] theorem runField_cfg (f : FieldId) : (runField f s).cfg = s.cfg := by cases f <;> rfl

@[simp] theorem runFields_cfg (fs : List FieldId) : (runFields fs s).cfg = s.cfg := by
  induction fs generalizing s with
  | nil => rfl
  | cons f fs ih => exact (ih (runField f s)).trans (runField_cfg s f)

@[simp] theorem runField_rxb (f : FieldId) : (runField f s).rxb = s.rxb := by cases f <;> rfl

@[simp] theorem runFields_rxb (fs : List FieldId) : (runFields fs s).rxb = s.rxb := by
  induction fs generalizing s with
  | nil => rfl
  | cons f fs ih => exact (ih (runField f s)).trans (runField_rxb s f)

@[simp] theorem runField_rxlen (f : FieldId) : (runField f s).rxlen = s.rxlen := by cases f <;> rfl

@[simp] theorem runFields_rxlen (fs : List FieldId) : (runFields fs s).rxlen = s.rxlen := by
  induction fs generalizing s with
  | nil => rfl
  | cons f fs ih => exact (ih (runField f s)).trans (runField_rxlen s f)

@[simp] theorem runField_txf (f : FieldId) : (runField f s).txf = s.txf := by cases f <;> rfl

@[simp] theorem runFields_txf (fs : List FieldId) : (runFields fs s).txf = s.txf := by
  induction fs generalizing s with
  | nil => rfl
  | cons f fs ih => exact (ih (runField f s)).trans (runField_txf s f)

@[simp] theorem runField_csr (f : FieldId) : (runField f s).csr = s.csr := by cases f <;> rfl

@[simp] theorem runFields_csr (fs : List FieldId) : (runFields fs s).csr = s.csr := by
  induction fs generalizing s with
  | nil => rfl
  | cons f fs ih => exact (ih (runField f s)).trans (runField_csr s f)

@[simp] theorem runField_acc (f : FieldId) : (runField f s).acc = s.acc := by cases f <;> rfl

@[simp] theorem runFields_acc (fs : List FieldId) : (runFields fs s).acc = s.acc := by
  induction fs generalizing s with
  | nil => rfl
  | cons f fs ih => exact (ih (runField f s)).trans (runField_acc s f)

@[simp] theorem runField_cmdIn (f : FieldId) : (runField f s).cmdIn = s.cmdIn := by cases f <;> rfl

@[simp] theorem runFields_cmdIn (fs : List FieldId) : (runFields fs s).cmdIn = s.cmdIn := by
  induction fs generalizing s with
  | nil => rfl
  | cons f fs ih => exact (ih (runField f s)).trans (runField_cmdIn s f)

@[simp] theorem runField_dataIn (f : FieldId) : (runField f s).dataIn = s.dataIn := by cases f <;> rfl

@[simp] theorem runFields_dataIn (fs : List FieldId) : (runFields fs s).dataIn = s.dataIn := by
  induction fs generalizing s with
  | nil => rfl
  | cons f fs ih => exact (ih (runField f s)).trans (runField_dataIn s f)

@[simp] theorem runField_seq (f : FieldId) : (runField f s).seq = s.seq := by cases f <;> rfl

@[simp] theorem runFields_seq (fs : List FieldId) : (runFields fs s).seq = s.seq := by
  induction fs generalizing s with
  | nil => rfl
  | cons f fs ih => exact (ih (runField f s)).trans (runField_seq s f)

end Sys2Proof.Machine
end

