-- ==== Sys2Proof/Laws/Step.lean ====
section
/-! SUPPORT. What a step is, case by case, and what the checks of CSUM and VERIFY say. -/

namespace Sys2Proof.Machine

/-- A command is run from the state in which it stands on the ports (R40). -/
theorem step_command {s : State} {c : HostCommand} {rest : List HostCommand} (h : s.seq = [])
    (hc : s.cmdIn = c :: rest) : step s = endCommand (exec (decodeCommand c.word) (s.accept c rest)) := by
  simp only [step, h, hc]

/-- The three cases of a step. -/
theorem step_cases (s : State) :
    (∃ f rest, s.seq = f :: rest ∧ step s = exec (opOf f) (s.takeOp rest)) ∨
    (s.seq = [] ∧ s.cmdIn = [] ∧ step s = .next s) ∨
    (∃ c rest, s.seq = [] ∧ s.cmdIn = c :: rest ∧
      step s = endCommand (exec (decodeCommand c.word) (s.accept c rest))) := by
  cases hq : s.seq with
  | cons f rest => exact .inl ⟨f, rest, rfl, by simp only [step, hq]⟩
  | nil =>
    cases hc : s.cmdIn with
    | nil => exact .inr (.inl ⟨rfl, rfl, by simp only [step, hq, hc]⟩)
    | cons c rest => exact .inr (.inr ⟨c, rest, rfl, rfl, step_command hq hc⟩)

theorem endCommand_eq_next {o : Host.Outcome State Fault Refusal} {t : State} (h : endCommand o = .next t) :
    ∃ u, o = .next u ∧ t = u.release := by
  cases o with
  | next u => exact ⟨u, rfl, by simpa [endCommand] using h.symm⟩
  | fault r => cases h
  | refused r => cases h

theorem exec_opOf (f : FieldId) (s : State) : exec (opOf f) s = .next (runField f s) := by cases f <;> rfl

@[simp] theorem fieldOf_opOf (f : FieldId) : fieldOf (opOf f) = some f := by cases f <;> rfl

@[simp] theorem srcLen_txf (s : State) : srcLen s .txf = 21 := rfl

@[simp] theorem srcLen_rxb (s : State) : srcLen s .rxb = s.rxlen.toNat := rfl

theorem srcUninit_eq_false {s : State} {sel : Source} :
    srcUninit s sel = false ↔ sel = .rxb ∨ s.status.txfValid = true := by
  cases sel <;> simp [srcUninit]

theorem rangeOk_iff {s : State} {sel : Source} {a b : U16} :
    rangeOk s sel a b = true ↔ a.toNat ≤ b.toNat ∧ b.toNat ≤ srcLen s sel := by
  simp [rangeOk]

theorem storedOk_iff {s : State} {sel : Source} {c : U16} :
    storedOk s sel c = true ↔ c.toNat + 2 ≤ srcLen s sel := by
  simp [storedOk]

/-- Every way CSUM ends (R106). -/
theorem runCsum_cases (sel : Source) (a b : U16) (s : State) :
    (srcUninit s sel = true ∧ runCsum sel a b s = .next (s.setErr .uninit)) ∨
    (srcUninit s sel = false ∧ rangeOk s sel a b = true ∧
      runCsum sel a b s = .next ((s.sumInto sel a b).setErr .none)) ∨
    (srcUninit s sel = false ∧ rangeOk s sel a b = false ∧ runCsum sel a b s = .next (s.setErr .range)) := by
  unfold runCsum refuse
  cases srcUninit s sel <;> cases rangeOk s sel a b <;> simp

/-- Every way VERIFY ends (R107). -/
theorem runVerify_cases (sel : Source) (a b c : U16) (s : State) :
    (srcUninit s sel = true ∧ runVerify sel a b c s = .next (s.setErr .uninit)) ∨
    (srcUninit s sel = false ∧ rangeOk s sel a b = true ∧ storedOk s sel c = true ∧
      runVerify sel a b c s = .next (((s.sumInto sel a b).setVok sel c).setErr .none)) ∨
    (srcUninit s sel = false ∧ (rangeOk s sel a b = true → storedOk s sel c = false) ∧
      runVerify sel a b c s = .next (s.setErr .range)) := by
  unfold runVerify refuse
  cases srcUninit s sel <;> cases rangeOk s sel a b <;> cases storedOk s sel c <;> simp

/-- Every way LOAD ends (R53, U13). -/
theorem execLoad_cases (n : U16) (s : State) :
    (s.cfg.bufMax < n.toNat ∧ execLoad n s = .next (s.setErr .range)) ∨
    (n.toNat ≤ s.cfg.bufMax ∧ s.dataIn.length = n.toNat ∧ execLoad n s = .next ((s.loadBytes n).setErr .none)) ∨
    (n.toNat ≤ s.cfg.bufMax ∧ s.dataIn.length ≠ n.toNat ∧ execLoad n s = .refused .dataInLength) := by
  unfold execLoad refuse
  by_cases h : n.toNat > s.cfg.bufMax
  · exact .inl ⟨h, by simp [h]⟩
  · by_cases h2 : s.dataIn.length = n.toNat
    · exact .inr (.inl ⟨by omega, h2, by simp [h, h2]⟩)
    · exact .inr (.inr ⟨by omega, h2, by simp [h, h2]⟩)

/-- Every way a command that is not a field operation ends, if it ends in a next state. -/
theorem exec_command_cases {i : Instr} {s t : State} (hi : fieldOf i = none) (h : exec i s = .next t) :
    (∃ e, e ≠ .none ∧ i ≠ .build ∧ i ≠ .decode ∧ t = s.setErr e) ∨
    (∃ n, i = .load n ∧ n.toNat ≤ s.cfg.bufMax ∧ s.dataIn.length = n.toNat ∧ t = (s.loadBytes n).setErr .none) ∨
    (i = .build ∧ t = s.build.setErr .none) ∨
    (∃ sel a b, i.expand = .csum sel a b ∧ srcUninit s sel = false ∧ rangeOk s sel a b = true ∧
      t = (s.sumInto sel a b).setErr .none) ∨
    (∃ sel a b c, i.expand = .verify sel a b c ∧ srcUninit s sel = false ∧ rangeOk s sel a b = true ∧
      storedOk s sel c = true ∧ t = ((s.sumInto sel a b).setVok sel c).setErr .none) ∨
    (i = .decode ∧ t = runDecode s) := by
  cases i with
  | load n =>
    rcases execLoad_cases n s with ⟨_, e⟩ | ⟨h1, h2, e⟩ | ⟨_, _, e⟩ <;> simp only [exec, e] at h <;> cases h
    · exact .inl ⟨.range, by simp, by simp, by simp, rfl⟩
    · exact .inr (.inl ⟨n, rfl, h1, h2, rfl⟩)
  | build => cases h; exact .inr (.inr (.inl ⟨rfl, rfl⟩))
  | csum sel a b =>
    rcases runCsum_cases sel a b s with ⟨_, e⟩ | ⟨h1, h2, e⟩ | ⟨_, _, e⟩ <;>
      simp only [exec, execCsum, e] at h <;> cases h
    · exact .inl ⟨.uninit, by simp, by simp, by simp, rfl⟩
    · exact .inr (.inr (.inr (.inl ⟨sel, a, b, rfl, h1, h2, rfl⟩)))
    · exact .inl ⟨.range, by simp, by simp, by simp, rfl⟩
  | csumall b =>
    rcases runCsum_cases .rxb 0 b s with ⟨_, e⟩ | ⟨h1, h2, e⟩ | ⟨_, _, e⟩ <;>
      simp only [exec, execCsumall, e] at h <;> cases h
    · exact .inl ⟨.uninit, by simp, by simp, by simp, rfl⟩
    · exact .inr (.inr (.inr (.inl ⟨.rxb, 0, b, rfl, h1, h2, rfl⟩)))
    · exact .inl ⟨.range, by simp, by simp, by simp, rfl⟩
  | verify sel a b c =>
    rcases runVerify_cases sel a b c s with ⟨_, e⟩ | ⟨h1, h2, h3, e⟩ | ⟨_, _, e⟩ <;>
      simp only [exec, execVerify, e] at h <;> cases h
    · exact .inl ⟨.uninit, by simp, by simp, by simp, rfl⟩
    · exact .inr (.inr (.inr (.inr (.inl ⟨sel, a, b, c, rfl, h1, h2, h3, rfl⟩))))
    · exact .inl ⟨.range, by simp, by simp, by simp, rfl⟩
  | chkframe =>
    rcases runVerify_cases .txf 0 17 19 s with ⟨_, e⟩ | ⟨h1, h2, h3, e⟩ | ⟨_, _, e⟩ <;>
      simp only [exec, execChkframe, e] at h <;> cases h
    · exact .inl ⟨.uninit, by simp, by simp, by simp, rfl⟩
    · exact .inr (.inr (.inr (.inr (.inl ⟨.txf, 0, 17, 19, rfl, h1, h2, h3, rfl⟩))))
    · exact .inl ⟨.range, by simp, by simp, by simp, rfl⟩
  | decode => cases h; exact .inr (.inr (.inr (.inr (.inr ⟨rfl, rfl⟩))))
  | reserved5 => cases h; exact .inl ⟨.cmd, by simp, by simp, by simp, rfl⟩
  | reserved6 => cases h; exact .inl ⟨.cmd, by simp, by simp, by simp, rfl⟩
  | reserved7 => cases h; exact .inl ⟨.cmd, by simp, by simp, by simp, rfl⟩
  | _ => cases hi

end Sys2Proof.Machine
end

