-- ==== Sys2Proof/Laws/Fields.lean ====
section
/-! SUPPORT. The extraction protocol in the terms of Safety.lean, and what get1 and get2 answer. -/

namespace Sys2Proof.Machine

/-- A search that answers `p` found the first occurrence (R132). -/
theorem firstAt_of_find {s : State} {t : Byte} {p : Nat} (h : find s.rxb s.rxlen.toNat t = some p) : FirstAt s t p := by
  obtain ⟨⟨_, h2⟩, h3, h4⟩ := findFrom_eq_some.1 h
  exact ⟨by omega, h3, fun q hq => h4 q (Nat.zero_le _) hq⟩

theorem noTag_of_find {s : State} {t : Byte} (h : find s.rxb s.rxlen.toNat t = none) : NoTag s t :=
  fun q hq => findFrom_eq_none.1 h q (Nat.zero_le _) (by omega)

/-- There is one first occurrence. -/
theorem FirstAt.unique {s : State} {t : Byte} {p q : Nat} (hp : FirstAt s t p) (hq : FirstAt s t q) : p = q := by
  rcases Nat.lt_trichotomy p q with h | h | h
  · exact absurd hp.2.1 (hq.2.2 p h)
  · exact h
  · exact absurd hq.2.1 (hp.2.2 q h)

theorem FirstAt.not_noTag {s : State} {t : Byte} {p : Nat} (hp : FirstAt s t p) : ¬ NoTag s t :=
  fun h => h p hp.1 hp.2.1

/-- A field settled from an extraction of `k` bytes obeys the extraction protocol, and a complete payload is left to
`good` (R133, R134). -/
theorem tagField_of_extract {α : Type} {s : State} {t : Byte} {k : Nat} {old new : FieldReg α} {good : Nat → Prop}
    (h0 : extract s.rxb s.rxlen.toNat t k = .error .tagNotFound → new = old.absent .tagNotFound)
    (h1 : extract s.rxb s.rxlen.toNat t k = .error .truncated → new = old.absent .truncated)
    (h2 : ∀ p, FirstAt s t p → p + k < s.rxlen.toNat →
      extract s.rxb s.rxlen.toNat t k = .ok (Memory.readBytes s.rxb (p + 1) k) → good p) :
    TagField s t k old new good := by
  rcases extract_cases s.rxb s.rxlen.toNat t k with ⟨hf, he⟩ | ⟨p, hf, hk, he⟩ | ⟨p, hf, hk, he⟩
  · have hn := noTag_of_find hf
    exact ⟨fun _ => h0 he, fun p hp => absurd hn hp.not_noTag, fun p hp => absurd hn hp.not_noTag⟩
  · have hp := firstAt_of_find hf
    refine ⟨fun hn => absurd hn hp.not_noTag, fun q hq _ => h1 he, fun q hq hlt => ?_⟩
    rw [hq.unique hp] at hlt
    omega
  · have hp := firstAt_of_find hf
    refine ⟨fun hn => absurd hn hp.not_noTag, fun q hq hle => ?_, fun q hq hlt => ?_⟩
    · rw [hq.unique hp] at hle
      omega
    · rw [hq.unique hp] at hlt ⊢
      exact h2 p hp hlt he

theorem get1_error {m : Memory} {len : Nat} {t : Byte} {c : Cause} (h : extract m len t 1 = .error c) :
    get1 m len t = .error c := by
  simp [get1, h]

theorem get1_ok {m : Memory} {len p : Nat} {t : Byte} (h : extract m len t 1 = .ok (Memory.readBytes m (p + 1) 1)) :
    get1 m len t = .ok (Memory.read m (p + 1)) := by
  rw [get1, h]
  simp only [Memory.getD_readBytes m (p + 1) 1 0 (by omega), Nat.add_zero]

theorem get2_error {m : Memory} {len : Nat} {t : Byte} {c : Cause} (h : extract m len t 2 = .error c) :
    get2 m len t = .error c := by
  simp [get2, h]

theorem get2_ok {m : Memory} {len p : Nat} {t : Byte} (h : extract m len t 2 = .ok (Memory.readBytes m (p + 1) 2)) :
    get2 m len t = .ok (be16 (Memory.read m (p + 1)) (Memory.read m (p + 2))) := by
  rw [get2, h]
  simp only [Memory.getD_readBytes m (p + 1) 2 0 (by omega), Memory.getD_readBytes m (p + 1) 2 1 (by omega),
    Nat.add_zero, Nat.add_assoc]

/-- An extraction fails with TAG_NOT_FOUND or TRUNCATED only (R133). -/
theorem extract_error_cause {m : Memory} {len : Nat} {t : Byte} {k : Nat} {c : Cause}
    (h : extract m len t k = .error c) : c = .tagNotFound ∨ c = .truncated := by
  rcases extract_cases m len t k with ⟨_, e⟩ | ⟨p, _, _, e⟩ | ⟨p, _, _, e⟩ <;> rw [e] at h <;> cases h <;> simp

theorem get1_error_cause {m : Memory} {len : Nat} {t : Byte} {c : Cause} (h : get1 m len t = .error c) :
    c = .tagNotFound ∨ c = .truncated := by
  unfold get1 at h
  cases he : extract m len t 1 <;> rw [he] at h <;> cases h
  exact extract_error_cause he

theorem get2_error_cause {m : Memory} {len : Nat} {t : Byte} {c : Cause} (h : get2 m len t = .error c) :
    c = .tagNotFound ∨ c = .truncated := by
  unfold get2 at h
  cases he : extract m len t 2 <;> rw [he] at h <;> cases h
  exact extract_error_cause he

theorem get1_congr {m m' : Memory} {len : Nat} {t : Byte}
    (h : ∀ q, q < len → Memory.read m q = Memory.read m' q) : get1 m len t = get1 m' len t := by
  simp only [get1, extract_congr h]

theorem get2_congr {m m' : Memory} {len : Nat} {t : Byte}
    (h : ∀ q, q < len → Memory.read m q = Memory.read m' q) : get2 m len t = get2 m' len t := by
  simp only [get2, extract_congr h]

@[simp] theorem FieldReg.settle_error {α : Type} (f : FieldReg α) (c : Cause) : f.settle (.error c) = ⟨false, c, f.val⟩ := rfl

@[simp] theorem FieldReg.settle_ok {α : Type} (f : FieldReg α) (v : α) : f.settle (.ok v) = ⟨true, .ok, v⟩ := rfl

@[simp] theorem FieldReg.absent_eq {α : Type} (f : FieldReg α) (c : Cause) : f.absent c = ⟨false, c, f.val⟩ := rfl

/-- A settled field is OK exactly when it is present, unless the outcome is an error that says OK. -/
theorem FieldReg.settle_ok_iff {α : Type} (f : FieldReg α) {r : Except Cause α} (h : r ≠ .error .ok) :
    (f.settle r).fs = .ok ↔ (f.settle r).v = true := by
  cases r with
  | ok v => simp
  | error c => simpa using fun e => h (by rw [e])

end Sys2Proof.Machine
end

