-- ==== Sys2Proof/Laws/DecodeControl.lean ====
section
/-! SUPPORT. The sequence of field operations: what each one leaves alone, what a field holds after a whole sequence, and
DECODE in those terms. -/

namespace Sys2Proof.Machine

variable (s : State)

/-! ### What no field operation touches in STATUS -/

@[simp] theorem runField_status_lenOk (f : FieldId) : (runField f s).status.lenOk = s.status.lenOk := by cases f <;> rfl

@[simp] theorem runFields_status_lenOk (fs : List FieldId) : (runFields fs s).status.lenOk = s.status.lenOk := by
  induction fs generalizing s with
  | nil => rfl
  | cons f fs ih => exact (ih (runField f s)).trans (runField_status_lenOk s f)

@[simp] theorem runField_status_vok (f : FieldId) : (runField f s).status.vok = s.status.vok := by cases f <;> rfl

@[simp] theorem runFields_status_vok (fs : List FieldId) : (runFields fs s).status.vok = s.status.vok := by
  induction fs generalizing s with
  | nil => rfl
  | cons f fs ih => exact (ih (runField f s)).trans (runField_status_vok s f)

@[simp] theorem runField_status_txfValid (f : FieldId) : (runField f s).status.txfValid = s.status.txfValid := by cases f <;> rfl

@[simp] theorem runFields_status_txfValid (fs : List FieldId) : (runFields fs s).status.txfValid = s.status.txfValid := by
  induction fs generalizing s with
  | nil => rfl
  | cons f fs ih => exact (ih (runField f s)).trans (runField_status_txfValid s f)

@[simp] theorem runField_status_decDone (f : FieldId) : (runField f s).status.decDone = s.status.decDone := by cases f <;> rfl

@[simp] theorem runFields_status_decDone (fs : List FieldId) : (runFields fs s).status.decDone = s.status.decDone := by
  induction fs generalizing s with
  | nil => rfl
  | cons f fs ih => exact (ih (runField f s)).trans (runField_status_decDone s f)

@[simp] theorem runField_status_err (f : FieldId) : (runField f s).status.err = s.status.err := by cases f <;> rfl

@[simp] theorem runFields_status_err (fs : List FieldId) : (runFields fs s).status.err = s.status.err := by
  induction fs generalizing s with
  | nil => rfl
  | cons f fs ih => exact (ih (runField f s)).trans (runField_status_err s f)

/-- The frame of a field operation. -/
theorem runField_frame (f : FieldId) :
    runField f s = { s with
      sp := (runField f s).sp, result := (runField f s).result, status := (runField f s).status } := by
  cases f <;> rfl

/-- A state that differs in SP, the result and STATUS only. -/
theorem State.frame_of {u s : State} (h1 : u.cfg = s.cfg) (h2 : u.rxb = s.rxb) (h3 : u.rxlen = s.rxlen)
    (h4 : u.txf = s.txf) (h5 : u.csr = s.csr) (h6 : u.acc = s.acc) (h7 : u.cmdIn = s.cmdIn)
    (h8 : u.dataIn = s.dataIn) (h9 : u.seq = s.seq) :
    u = { s with sp := u.sp, result := u.result, status := u.status } := by
  cases u
  cases s
  cases h1; cases h2; cases h3; cases h4; cases h5; cases h6; cases h7; cases h8; cases h9
  rfl

/-- The frame of a sequence of field operations. -/
theorem runFields_frame (fs : List FieldId) :
    runFields fs s = { s with
      sp := (runFields fs s).sp, result := (runFields fs s).result, status := (runFields fs s).status } :=
  State.frame_of (runFields_cfg s fs) (runFields_rxb s fs) (runFields_rxlen s fs) (runFields_txf s fs)
    (runFields_csr s fs) (runFields_acc s fs) (runFields_cmdIn s fs) (runFields_dataIn s fs) (runFields_seq s fs)

@[simp] theorem runFields_nil : runFields [] s = s := rfl

@[simp] theorem runFields_cons (f : FieldId) (fs : List FieldId) :
    runFields (f :: fs) s = runFields fs (runField f s) := rfl

theorem runFields_append (fs gs : List FieldId) : runFields (fs ++ gs) s = runFields gs (runFields fs s) := by
  simp [runFields]

/-! ### Fields -/

theorem SameField.refl (f : FieldId) (r : Reading) : SameField f r r := by cases f <;> rfl

theorem SameField.symm {f : FieldId} {r r' : Reading} (h : SameField f r r') : SameField f r' r := by
  cases f <;> exact Eq.symm h

theorem SameField.trans {f : FieldId} {r r' r'' : Reading} (h : SameField f r r') (h' : SameField f r' r'') :
    SameField f r r'' := by
  cases f <;> exact Eq.trans h h'

/-- A field operation writes its own field only (R136). -/
theorem runField_other {f g : FieldId} (h : f ≠ g) : SameField f (runField g s).result s.result := by
  cases f <;> cases g <;> first | rfl | exact absurd rfl h

/-- The stored cell groups depend on the bytes below the length only. -/
theorem storeCells_congr {m m' : Memory} {len p n : Nat} (old : CellBlock)
    (hb : ∀ q, q < len → Memory.read m q = Memory.read m' q) (h : p + 1 + 3 * n < len) :
    storeCells m p n old = storeCells m' p n old := by
  have hg : ∀ j, j < n → cellGroup m p j = cellGroup m' p j := by
    intro j hj
    simp only [cellGroup, hb (p + 2 + 3 * j) (by omega), hb (p + 3 + 3 * j) (by omega), hb (p + 4 + 3 * j) (by omega)]
  have hv : (storeCells m p n old).cell = (storeCells m' p n old).cell := by
    apply Vector.ext
    intro i hi
    simp only [storeCells, Vector.getElem_ofFn]
    split
    · exact hg i ‹_›
    · rfl
  exact congrArg (CellBlock.mk (BitVec.ofNat 7 n)) hv

theorem cellsField_congr {s s' : State} (hc : s.cfg = s'.cfg) (hl : s.rxlen = s'.rxlen)
    (hb : ∀ q, q < s'.rxlen.toNat → Memory.read s.rxb q = Memory.read s'.rxb q)
    (hr : s.result.cells = s'.result.cells) : cellsField s = cellsField s' := by
  simp only [cellsField, hl, hc, hr, find_congr hb]
  cases find s'.rxb s'.rxlen.toNat 0x79 with
  | none => rfl
  | some p =>
    by_cases h3 : p + 1 ≥ s'.rxlen.toNat
    · simp only [h3, if_true]
    · have e := hb (p + 1) (by omega)
      simp only [h3, if_false, e]
      by_cases h4 : p + 1 + (Memory.read s'.rxb (p + 1)).toNat ≥ s'.rxlen.toNat
      · simp only [h4, if_true]
      · simp only [h4, if_false]
        rw [storeCells_congr _ hb (by omega)]

/-- A tag operation depends on the buffer, the parameters and its own field (R136). -/
theorem runField_congr {f : FieldId} {s s' : State} (hf : f ≠ .delta) (hc : s.cfg = s'.cfg) (hl : s.rxlen = s'.rxlen)
    (hb : ∀ q, q < s.rxlen.toNat → Memory.read s.rxb q = Memory.read s'.rxb q) (hr : SameField f s.result s'.result) :
    SameField f (runField f s).result (runField f s').result := by
  rw [hl] at hb
  have h1 := fun t => get1_congr (t := t) hb
  have h2 := fun t => get2_congr (t := t) hb
  have h3 : versionField s = versionField s' := by rw [versionField, versionField, hl, extract_congr hb]
  cases f
  case cells =>
    have e : s.result.cells.settle (cellsField s) = s'.result.cells.settle (cellsField s') :=
      congr (congrArg FieldReg.settle hr) (cellsField_congr hc hl hb hr)
    exact e
  case swver =>
    have e : s.result.swver.settle (versionField s) = s'.result.swver.settle (versionField s') :=
      congr (congrArg FieldReg.settle hr) h3
    exact e
  case delta => exact absurd rfl hf
  all_goals
    simp only [SameField] at hr
    simp only [SameField, runField, runF80, runF81, runF82, runF83, runF84, runF85, runF86, runF8a, runF8b, runF9d, runFad,
      runFb8, runFb9, runFc0, tempField, currentField, warnField, balField, calField, hr, hc, hl, h1, h2]

/-- A field whose operation is not in the sequence keeps what it held (R136). -/
theorem runFields_other {f : FieldId} {fs : List FieldId} (h : f ∉ fs) :
    SameField f (runFields fs s).result s.result := by
  induction fs generalizing s with
  | nil => exact SameField.refl f _
  | cons g gs ih =>
    simp only [List.mem_cons, not_or] at h
    exact (ih (runField g s) h.2).trans (runField_other s h.1)

/-- After a sequence in which a tag operation stands once, its field is what the operation alone gives (R137). -/
theorem runFields_tag {f : FieldId} (hf : f ≠ .delta) {fs : List FieldId} (hn : fs.Nodup) (hm : f ∈ fs) :
    SameField f (runFields fs s).result (runField f s).result := by
  induction fs generalizing s with
  | nil => cases hm
  | cons g gs ih =>
    rw [List.nodup_cons] at hn
    by_cases hg : f = g
    · subst hg
      exact runFields_other _ hn.1
    · have hm' : f ∈ gs := by simpa [hg] using hm
      exact (ih (runField g s) hn.2 hm').trans
        (runField_congr hf (runField_cfg s g) (runField_rxlen s g) (fun q _ => by rw [runField_rxb])
          (runField_other s hg))

theorem decodeOrder_nodup : decodeOrder.Nodup := by decide

theorem mem_decodeOrder (f : FieldId) : f ∈ decodeOrder := by cases f <;> decide

/-- Two readings are the same once they are field by field. -/
theorem Reading.ext_fields {r r' : Reading} (h : ∀ f, SameField f r r') : r = r' := by
  have h0 := h .cells; have h1 := h .ttube; have h2 := h .tbox; have h3 := h .tcell
  have h4 := h .volt; have h5 := h .cur; have h6 := h .soc; have h7 := h .ntemp
  have h8 := h .nstr; have h9 := h .warn; have h10 := h .bal; have h11 := h .calma
  have h12 := h .swver; have h13 := h .calst; have h14 := h .cap; have h15 := h .proto
  have h16 := h .delta
  simp only [SameField] at *
  cases r
  cases r'
  simp_all

theorem deltaField_congr {r r' : Reading} (h : r.cells = r'.cells) : deltaField r = deltaField r' := by
  unfold deltaField decodedMv
  rw [h]

/-- The delta after the tag operations of `fs` and FDELTA: from the cells they left (R186). -/
theorem runFields_append_delta (fs : List FieldId) :
    (runFields (fs ++ [FieldId.delta]) s).result.delta =
      (runFields fs s).result.delta.settle (deltaField (runFields (fs ++ [FieldId.delta]) s).result) := by
  have e : runFields (fs ++ [FieldId.delta]) s = runFdelta (runFields fs s) := runFields_append s fs [FieldId.delta]
  rw [e]
  generalize runFields fs s = u
  rfl

/-- The delta after the whole sequence: from the cells the tag operations left (R186). -/
theorem runFields_delta :
    (runFields decodeOrder s).result.delta = s.result.delta.settle (deltaField (runFields decodeOrder s).result) := by
  have e : (runFields tagOps s).result.delta = s.result.delta :=
    runFields_other (f := .delta) (fs := tagOps) s (by decide)
  rw [decodeOrder, runFields_append_delta, e]

/-! ### The anomaly bits -/

theorem currentAnomaly_congr {s s' : State} (hl : s.rxlen = s'.rxlen)
    (hb : ∀ q, q < s'.rxlen.toNat → Memory.read s.rxb q = Memory.read s'.rxb q) :
    currentAnomaly s = currentAnomaly s' := by
  unfold currentAnomaly
  rw [hl, get2_congr hb]

theorem calAnomaly_congr {s s' : State} (hl : s.rxlen = s'.rxlen)
    (hb : ∀ q, q < s'.rxlen.toNat → Memory.read s.rxb q = Memory.read s'.rxb q) :
    calAnomaly s = calAnomaly s' := by
  unfold calAnomaly
  rw [hl, get1_congr hb]

theorem cellsAnomaly_congr {s s' : State} (hl : s.rxlen = s'.rxlen)
    (hb : ∀ q, q < s'.rxlen.toNat → Memory.read s.rxb q = Memory.read s'.rxb q) :
    cellsAnomaly s = cellsAnomaly s' := by
  unfold cellsAnomaly
  rw [hl, find_congr hb]
  cases find s'.rxb s'.rxlen.toNat 0x79 with
  | none => rfl
  | some p =>
    dsimp only
    split
    · rfl
    · rw [hb _ (by omega)]

theorem runField_aCur (f : FieldId) :
    (runField f s).status.aCur = (s.status.aCur || (decide (f = .cur) && currentAnomaly s)) := by
  cases f <;> first | rfl | exact (Bool.or_false _).symm

theorem runFields_aCur (fs : List FieldId) :
    (runFields fs s).status.aCur = (s.status.aCur || (decide (.cur ∈ fs) && currentAnomaly s)) := by
  induction fs generalizing s with
  | nil => simp
  | cons f fs ih =>
    have e : currentAnomaly (runField f s) = currentAnomaly s :=
      currentAnomaly_congr (runField_rxlen s f) fun q _ => by rw [runField_rxb]
    rw [runFields_cons, ih, runField_aCur, e]
    by_cases h : f = .cur
    · cases currentAnomaly s <;> simp [h]
    · have h' : FieldId.cur ≠ f := fun e => h e.symm
      simp [h, h']

theorem runField_aCal (f : FieldId) :
    (runField f s).status.aCal = (s.status.aCal || (decide (f = .calst) && calAnomaly s)) := by
  cases f <;> first | rfl | exact (Bool.or_false _).symm

theorem runFields_aCal (fs : List FieldId) :
    (runFields fs s).status.aCal = (s.status.aCal || (decide (.calst ∈ fs) && calAnomaly s)) := by
  induction fs generalizing s with
  | nil => simp
  | cons f fs ih =>
    have e : calAnomaly (runField f s) = calAnomaly s :=
      calAnomaly_congr (runField_rxlen s f) fun q _ => by rw [runField_rxb]
    rw [runFields_cons, ih, runField_aCal, e]
    by_cases h : f = .calst
    · cases calAnomaly s <;> simp [h]
    · have h' : FieldId.calst ≠ f := fun e => h e.symm
      simp [h, h']

theorem runField_aCell (f : FieldId) :
    (runField f s).status.aCell = (s.status.aCell || (decide (f = .cells) && cellsAnomaly s)) := by
  cases f <;> first | rfl | exact (Bool.or_false _).symm

theorem runFields_aCell (fs : List FieldId) :
    (runFields fs s).status.aCell = (s.status.aCell || (decide (.cells ∈ fs) && cellsAnomaly s)) := by
  induction fs generalizing s with
  | nil => simp
  | cons f fs ih =>
    have e : cellsAnomaly (runField f s) = cellsAnomaly s :=
      cellsAnomaly_congr (runField_rxlen s f) fun q _ => by rw [runField_rxb]
    rw [runFields_cons, ih, runField_aCell, e]
    by_cases h : f = .cells
    · cases cellsAnomaly s <;> simp [h]
    · have h' : FieldId.cells ≠ f := fun e => h e.symm
      simp [h, h']

/-- STATUS after a sequence of field operations: the anomaly bits of the operations in it, all else as before. -/
theorem runFields_status (fs : List FieldId) :
    (runFields fs s).status = { s.status with
      aCur := s.status.aCur || (decide (.cur ∈ fs) && currentAnomaly s)
      aCal := s.status.aCal || (decide (.calst ∈ fs) && calAnomaly s)
      aCell := s.status.aCell || (decide (.cells ∈ fs) && cellsAnomaly s) } := by
  have h1 := runFields_aCur s fs
  have h2 := runFields_aCal s fs
  have h3 := runFields_aCell s fs
  have h4 := runFields_status_lenOk s fs
  have h5 := runFields_status_vok s fs
  have h6 := runFields_status_txfValid s fs
  have h7 := runFields_status_decDone s fs
  have h8 := runFields_status_err s fs
  generalize (runFields fs s).status = u at *
  cases u
  simp only at h1 h2 h3 h4 h5 h6 h7 h8
  rw [h1, h2, h3, h4, h5, h6, h7, h8]

/-! ### DECODE -/

/-- DECODE with 39 bytes or more (R131). -/
theorem runDecode_long (h : 38 < s.rxlen.toNat) :
    runDecode s = (runFields decodeOrder ((prologue s).setLenOk true)).finishDecode := by
  have h' : s.rxlen.toNat > minLen := h
  simp only [runDecode, h', if_true]

theorem runDecode_result (h : 38 < s.rxlen.toNat) :
    (runDecode s).result = (runFields decodeOrder ((prologue s).setLenOk true)).result := by
  rw [runDecode_long s h, State.finishDecode_result]

/-- The status after a DECODE with 39 bytes or more (R131, R205). -/
theorem runDecode_status (h : 38 < s.rxlen.toNat) :
    (runDecode s).status = { s.status with
      lenOk := true, aCur := currentAnomaly s, aCal := calAnomaly s, aCell := cellsAnomaly s, decDone := true,
      err := .none } := by
  rw [runDecode_long s h, State.finishDecode_status, runFields_status]
  simp only [mem_decodeOrder]
  rfl

/-- Every tag's field after a DECODE is what its operation gives on the cleared reading (R137). -/
theorem runDecode_field (h : 38 < s.rxlen.toNat) {f : FieldId} (hf : f ≠ .delta) :
    SameField f (runDecode s).result (runField f (prologue s)).result := by
  rw [runDecode_result s h]
  exact (runFields_tag _ hf decodeOrder_nodup (mem_decodeOrder f)).trans
    (runField_congr (s := (prologue s).setLenOk true) (s' := prologue s) hf rfl rfl (fun _ _ => rfl) (SameField.refl f _))

/-- The delta after a DECODE, from the cells it decoded (R186). -/
theorem runDecode_delta (h : 38 < s.rxlen.toNat) :
    (runDecode s).result.delta = (Reading.blank .notDecoded).delta.settle (deltaField (runDecode s).result) := by
  rw [runDecode_result s h]
  exact runFields_delta _

/-- DECODE with 38 bytes or fewer (R131, R206). -/
theorem runDecode_short (h : s.rxlen.toNat ≤ 38) :
    runDecode s = { s with
      result := Reading.blank .undersized
      status := { s.status with
        lenOk := false, aCur := false, aCal := false, aCell := false, decDone := true, err := .none } } := by
  have h' : ¬ s.rxlen.toNat > minLen := by
    show ¬ s.rxlen.toNat > 38
    omega
  simp only [runDecode, h', if_false]
  rfl

/-- The frame of DECODE (R39). -/
theorem runDecode_frame :
    runDecode s = { s with
      sp := (runDecode s).sp
      result := (runDecode s).result
      status := { s.status with
        lenOk := (runDecode s).status.lenOk
        aCur := (runDecode s).status.aCur
        aCal := (runDecode s).status.aCal
        aCell := (runDecode s).status.aCell
        decDone := true
        err := .none } } := by
  by_cases h : 38 < s.rxlen.toNat
  · rw [runDecode_long s h]
    have hst : ∀ u : Status, u.vok = s.status.vok → u.txfValid = s.status.txfValid →
        ({ u with decDone := true, err := .none } : Status) =
          { s.status with
            lenOk := u.lenOk, aCur := u.aCur, aCal := u.aCal, aCell := u.aCell, decDone := true, err := .none } := by
      intro u h1 h2
      simp only [h1, h2]
    have hr := runFields_frame ((prologue s).setLenOk true) decodeOrder
    have hv : (runFields decodeOrder ((prologue s).setLenOk true)).status.vok = s.status.vok := by simp; rfl
    have ht : (runFields decodeOrder ((prologue s).setLenOk true)).status.txfValid = s.status.txfValid := by simp; rfl
    generalize runFields decodeOrder ((prologue s).setLenOk true) = u at hr hv ht ⊢
    have hs := hst u.status hv ht
    unfold State.finishDecode
    simp only
    rw [← hs, hr]
    rfl
  · rw [runDecode_short s (by omega)]

/-- Where DECODE leaves the scan pointer: at the last search, that for 0xC0 (R132, R136; log 8). -/
theorem runDecode_sp (h : 38 < s.rxlen.toNat) : (runDecode s).sp = spAfter s.rxb s.rxlen 0xC0 := by
  have e : runFields decodeOrder ((prologue s).setLenOk true) =
      runFdelta (runFc0 (runFields (decodeOrder.take 15) ((prologue s).setLenOk true))) :=
    runFields_append ((prologue s).setLenOk true) (decodeOrder.take 15) [FieldId.proto, FieldId.delta]
  have h1 := runFields_rxb ((prologue s).setLenOk true) (decodeOrder.take 15)
  have h2 := runFields_rxlen ((prologue s).setLenOk true) (decodeOrder.take 15)
  rw [runDecode_long s h, State.finishDecode_sp, e]
  generalize runFields (decodeOrder.take 15) ((prologue s).setLenOk true) = u at *
  show spAfter u.rxb u.rxlen 0xC0 = _
  rw [h1, h2]
  rfl

/-- A command word never decodes to a field operation (R72, R83). -/
theorem fieldOf_decodeCommand (w : BitVec 52) : fieldOf (decodeCommand w) = none := by
  have hn : ∀ i : Instr, fieldOf i = none → fieldOf i.named = none := by
    intro i h
    unfold Instr.named
    split <;> first | exact h | (split <;> rfl)
  have h : fieldOf (decodeOp w) = none := by
    unfold decodeOp
    split <;> rfl
  exact hn _ h

end Sys2Proof.Machine
end

