-- ==== Sys2Proof/Laws/PerInstr.lean ====
section
/-! SUPPORT. Statements made for every instruction as syntax, one lemma per constructor. -/

namespace Sys2Proof.Laws

/-- The encoding of the instruction has the width of its row in the opcode table and the row's fixed bits. -/
def RowMatch.Statement (i : Instr) : Prop :=
  (encode i).bits.1 = (tableRow i).width ∧ (encode i).bits.2 &&& (tableRow i).mask = (tableRow i).pattern

/-- The low three bits of a packed command word are its operation code (R72). -/
theorem packCW_and_seven (op : BitVec 3) (sel : BitVec 1) (a b c : U16) :
    (packCW op sel a b c).toNat &&& 7 = op.toNat := by
  have h := congrArg BitVec.toNat (cwOp_packCW op sel a b c)
  rw [cwOp_toNat] at h
  rw [← h]
  exact Nat.and_two_pow_sub_one_eq_mod _ 3

theorem RowMatch.load (n : U16) : RowMatch.Statement (.load n) := ⟨rfl, packCW_and_seven _ _ _ _ _⟩

theorem RowMatch.build : RowMatch.Statement .build := ⟨rfl, packCW_and_seven _ _ _ _ _⟩

theorem RowMatch.csum (sel : Source) (a b : U16) : RowMatch.Statement (.csum sel a b) := ⟨rfl, packCW_and_seven _ _ _ _ _⟩

theorem RowMatch.verify (sel : Source) (a b c : U16) : RowMatch.Statement (.verify sel a b c) := ⟨rfl, packCW_and_seven _ _ _ _ _⟩

theorem RowMatch.decode : RowMatch.Statement .decode := ⟨rfl, packCW_and_seven _ _ _ _ _⟩

theorem RowMatch.reserved5 : RowMatch.Statement .reserved5 := ⟨rfl, packCW_and_seven _ _ _ _ _⟩

theorem RowMatch.reserved6 : RowMatch.Statement .reserved6 := ⟨rfl, packCW_and_seven _ _ _ _ _⟩

theorem RowMatch.reserved7 : RowMatch.Statement .reserved7 := ⟨rfl, packCW_and_seven _ _ _ _ _⟩

theorem RowMatch.chkframe : RowMatch.Statement .chkframe := ⟨rfl, by decide⟩

theorem RowMatch.csumall (b : U16) : RowMatch.Statement (.csumall b) := by
  refine ⟨rfl, ?_⟩
  have h : (packCW 2 1 0 b 0).setWidth 20 = 0xA := by
    apply BitVec.eq_of_getLsbD_eq
    intro i hi
    simp only [packCW, BitVec.getLsbD_setWidth, BitVec.getLsbD_append]
    interval_cases i <;> simp
  have h' := congrArg BitVec.toNat h
  rw [BitVec.toNat_setWidth] at h'
  exact (Nat.and_two_pow_sub_one_eq_mod _ 20).trans h'

theorem RowMatch.f79 : RowMatch.Statement .f79 := ⟨rfl, by decide⟩

theorem RowMatch.f80 : RowMatch.Statement .f80 := ⟨rfl, by decide⟩

theorem RowMatch.f81 : RowMatch.Statement .f81 := ⟨rfl, by decide⟩

theorem RowMatch.f82 : RowMatch.Statement .f82 := ⟨rfl, by decide⟩

theorem RowMatch.f83 : RowMatch.Statement .f83 := ⟨rfl, by decide⟩

theorem RowMatch.f84 : RowMatch.Statement .f84 := ⟨rfl, by decide⟩

theorem RowMatch.f85 : RowMatch.Statement .f85 := ⟨rfl, by decide⟩

theorem RowMatch.f86 : RowMatch.Statement .f86 := ⟨rfl, by decide⟩

theorem RowMatch.f8a : RowMatch.Statement .f8a := ⟨rfl, by decide⟩

theorem RowMatch.f8b : RowMatch.Statement .f8b := ⟨rfl, by decide⟩

theorem RowMatch.f9d : RowMatch.Statement .f9d := ⟨rfl, by decide⟩

theorem RowMatch.fad : RowMatch.Statement .fad := ⟨rfl, by decide⟩

theorem RowMatch.fb7 : RowMatch.Statement .fb7 := ⟨rfl, by decide⟩

theorem RowMatch.fb8 : RowMatch.Statement .fb8 := ⟨rfl, by decide⟩

theorem RowMatch.fb9 : RowMatch.Statement .fb9 := ⟨rfl, by decide⟩

theorem RowMatch.fc0 : RowMatch.Statement .fc0 := ⟨rfl, by decide⟩

theorem RowMatch.fdelta : RowMatch.Statement .fdelta := ⟨rfl, by decide⟩

end Sys2Proof.Laws
end

