-- ==== Sys2Proof/Tests/Slice0.lean ====
section
/-! SUPPORT. The model's own tests. Expected values come from the rules and from 95_test_vectors.md, whose row each test's
comment names; none was taken from a run of the model. -/

namespace Sys2Proof.Tests

open Sys2Proof.Machine

/-! ### Helpers -/

/-- A block with `BUF_MAX` = 256 that holds the given response. -/
def loaded (bytes : List Byte) : State :=
  { State.reset with
    cfg := ⟨256, .hundred, false⟩, rxb := Memory.writeBytes [] 0 bytes, rxlen := BitVec.ofNat 16 bytes.length }

/-- The same after BUILD. -/
def built (bytes : List Byte) : State := (loaded bytes).build

/-- A host command waiting. -/
def asked (w : BitVec 52) (d : List Byte) (s : State) : State := { s with cmdIn := [⟨w, d⟩] }

/-- A field operation waiting. -/
def ordered (f : FieldId) (s : State) : State := { s with seq := [f] }

/-- Whether there is a next state and it is as said. -/
def nextIs (o : Host.Outcome State Fault Refusal) (p : State → Bool) : Bool :=
  match o with
  | .next t => p t
  | .fault _ => false
  | .refused _ => false

/-- Whether the outcome is the refusal of a LOAD with the wrong number of bytes. -/
def refusedAtThePorts (o : Host.Outcome State Fault Refusal) : Bool :=
  match o with
  | .next _ => false
  | .fault _ => false
  | .refused r => r == .dataInLength

/-- `n` bytes of 00. -/
def z (n : Nat) : List Byte := List.replicate n 0

/-- The response of program P2, 80 bytes. -/
def p2 : List Byte :=
  [0x4E, 0x57, 0x01, 0x1B, 0x00, 0x00, 0x00, 0x00, 0x06, 0x00, 0x01, 0x79, 0x09, 0x01, 0x0C, 0xE4] ++
  [0x02, 0x0C, 0xB2, 0x03, 0x0C, 0xD0, 0x80, 0x00, 0x19, 0x81, 0x00, 0x7D, 0x82, 0x00, 0x12, 0x83] ++
  [0x0A, 0x50, 0x84, 0xA7, 0x10, 0x85, 0x4B, 0x86, 0x02, 0x8A, 0x00, 0x03, 0x8B, 0x00, 0x05, 0x9D] ++
  [0x01, 0xAD, 0x03, 0xE8, 0xB7, 0x4A, 0x4B, 0x2D, 0x53, 0x57, 0x2D, 0x56, 0x31, 0x2E, 0x30, 0x2D] ++
  [0x54, 0x45, 0x53, 0x54, 0xB8, 0x01, 0xB9, 0x01, 0x18, 0xC0, 0x01, 0x68, 0x00, 0x00, 0x14, 0x1E]

/-- The response of program P5, 43 bytes. -/
def p5 : List Byte :=
  [0x4E, 0x57, 0x00, 0x2D, 0x00, 0x00, 0x00, 0x00, 0x06, 0x00, 0x01, 0x79, 0x04, 0x01, 0x0C, 0xE4, 0x02] ++
  [0x84, 0x4E, 0x20, 0xB8, 0x07, 0x9D, 0x02, 0x8B, 0xC0, 0x01, 0x82, 0x00, 0x65] ++ z 11 ++ [0x83, 0x0A]

/-- The response of vector CL7: three cells. -/
def cl7 : List Byte := [0x79, 0x09, 0x01, 0x0C, 0xE4, 0x02, 0x0C, 0xB2, 0x03, 0x0C, 0xD0] ++ z 28

/-! ### Well-formed terms -/

/-- CSUMALL spelled out is refused (R86). -/
theorem test_wellFormed_csum : (Instr.csum .rxb 0 5).wellFormed = false := by decide

/-- CHKFRAME spelled out is refused (R86). -/
theorem test_wellFormed_verify : (Instr.verify .txf 0 17 19).wellFormed = false := by decide

/-- Neighbours of the two are accepted. -/
theorem test_wellFormed_neighbours :
    (Instr.csum .txf 0 5).wellFormed = true ∧ (Instr.csum .rxb 1 5).wellFormed = true ∧
    (Instr.verify .rxb 0 17 19).wellFormed = true ∧ (Instr.verify .txf 1 17 19).wellFormed = true ∧
    (Instr.verify .txf 0 16 19).wellFormed = true ∧ (Instr.verify .txf 0 17 20).wellFormed = true ∧
    (Instr.load 5).wellFormed = true := by decide

/-! ### Decoding: words written out from the spec's encodings (R71, R72, R80, R86) -/

/-- LOAD: op 000, sel 0, a = 0000000001010000 (P2). -/
theorem test_decode_load : decode (.cw 0b0000000001010000_0_000) = .ok (.load 80) := by decide

/-- BUILD: op 001, every other bit ignored (FB3). -/
theorem test_decode_build :
    decode (.cw 0b001) = .ok .build ∧ decode (.cw 0x9ABC567812349) = .ok .build := by decide

/-- CSUM: op 010, sel 0, a = 17, b = 3 (RF6). -/
theorem test_decode_csum :
    decode (.cw 0b0000000000000011_0000000000010001_0_010) = .ok (.csum .txf 17 3) ∧
    decode (.cw 0x0000000300112) = .ok (.csum .txf 17 3) := by decide

/-- VERIFY: op 011, sel 1, a = 0, b = 43, c = 43 (P7). -/
theorem test_decode_verify :
    decode (.cw 0b0000000000101011_0000000000101011_0000000000000000_1_011) = .ok (.verify .rxb 0 43 43) ∧
    decode (.cw 0x002B002B0000B) = .ok (.verify .rxb 0 43 43) := by decide

/-- DECODE: op 100. -/
theorem test_decode_decode : decode (.cw 0b100) = .ok .decode := by decide

/-- The reserved codes 101, 110, 111 (R73). -/
theorem test_decode_reserved :
    decode (.cw 0b101) = .ok .reserved5 ∧ decode (.cw 0b110) = .ok .reserved6 ∧ decode (.cw 0b111) = .ok .reserved7 := by
  decide

/-- CHKFRAME and CSUMALL (P1, RF4); that the decoder uses these names is log 12. -/
theorem test_decode_pseudo :
    decode (.cw 0x0013001100003) = .ok .chkframe ∧ decode (.cw 0x000000010000A) = .ok (.csumall 1) := by decide

/-- The sixteen tags, and bytes beside them (R80, R83). -/
theorem test_decode_tags :
    decode (.tag 0b01111001) = .ok .f79 ∧ decode (.tag 0b10000000) = .ok .f80 ∧ decode (.tag 0b10000001) = .ok .f81 ∧
    decode (.tag 0b10000010) = .ok .f82 ∧ decode (.tag 0b10000011) = .ok .f83 ∧ decode (.tag 0b10000100) = .ok .f84 ∧
    decode (.tag 0b10000101) = .ok .f85 ∧ decode (.tag 0b10000110) = .ok .f86 ∧ decode (.tag 0b10001010) = .ok .f8a ∧
    decode (.tag 0b10001011) = .ok .f8b ∧ decode (.tag 0b10011101) = .ok .f9d ∧ decode (.tag 0b10101101) = .ok .fad ∧
    decode (.tag 0b10110111) = .ok .fb7 ∧ decode (.tag 0b10111000) = .ok .fb8 ∧ decode (.tag 0b10111001) = .ok .fb9 ∧
    decode (.tag 0b11000000) = .ok .fc0 ∧ decode (.tag 0x87) = .error (.notATag 0x87) ∧
    decode (.tag 0x00) = .error (.notATag 0x00) ∧ decode .derived = .ok .fdelta := by decide

/-- Encoding gives the words of P1 and P2 (R86). -/
theorem test_encode :
    encode (.csum .txf 0 17) = .cw 0x0000001100002 ∧ encode (.verify .rxb 0 78 78) = .cw 0x004E004E0000B ∧
    encode (.load 80) = .cw 0x0000000000500 ∧ encode .chkframe = .cw 0x0013001100003 := by decide

/-- The decoder on words numbered as the opcode table numbers them. -/
theorem test_decodeTableWord :
    decodeTableWord 52 0xA = some (.csumall 0) ∧ decodeTableWord 8 0x79 = some .f79 ∧
    decodeTableWord 8 0x4 = some .decode ∧ decodeTableWord 0 0 = some .fdelta ∧ decodeTableWord 0 1 = none ∧
    decodeTableWord 56 0x10000000000000 = none := by decide

/-! ### A placed instruction is the first one run after reset -/

/-- Every command row. -/
theorem test_withFetchWord_commands :
    nextIs (step (State.reset.withFetchWord 52 0x0)) (fun t => t.status.word == 0x0000) = true ∧
    nextIs (step (State.reset.withFetchWord 52 0x1)) (fun t => t.status.word == 0x0020) = true ∧
    nextIs (step (State.reset.withFetchWord 52 0x2)) (fun t => t.status.word == 0x0300) = true ∧
    nextIs (step (State.reset.withFetchWord 52 0x3)) (fun t => t.status.word == 0x0300) = true ∧
    nextIs (step (State.reset.withFetchWord 52 0x4)) (fun t => t.status.word == 0x0040) = true ∧
    nextIs (step (State.reset.withFetchWord 52 0x5)) (fun t => t.status.word == 0x0100) = true ∧
    nextIs (step (State.reset.withFetchWord 52 0x6)) (fun t => t.status.word == 0x0100) = true ∧
    nextIs (step (State.reset.withFetchWord 52 0x7)) (fun t => t.status.word == 0x0100) = true ∧
    nextIs (step (State.reset.withFetchWord 52 0x13001100003)) (fun t => t.status.word == 0x0300) = true ∧
    nextIs (step (State.reset.withFetchWord 52 0xA)) (fun t => t.status.word == 0x0000) = true := by decide

/-- A tag operation and FDELTA. -/
theorem test_withFetchWord_fields :
    nextIs (step (State.reset.withFetchWord 8 0x79)) (fun t => t.result.cells.fs == .tagNotFound) = true ∧
    nextIs (step (State.reset.withFetchWord 8 0xC0)) (fun t => t.result.proto.fs == .tagNotFound) = true ∧
    nextIs (step (State.reset.withFetchWord 0 0)) (fun t => t.result.delta.fs == .emptySource) = true := by decide

/-! ### LOAD, BUILD and the refusals -/

/-- LD2: five bytes over P2's; the sixth is still there and out of reach. -/
theorem test_load :
    nextIs (step (asked 0x50 [1, 2, 3, 4, 5] (loaded p2)))
      (fun t => t.rxlen == 5 && Memory.readBytes t.rxb 0 5 == [1, 2, 3, 4, 5] && Memory.read t.rxb 8 == 0x06 &&
        t.dataIn == []) = true := by decide

/-- LD3: 257 bytes do not fit in 256. -/
theorem test_load_too_long :
    nextIs (step (asked 0x1010 (z 257) (loaded [7]))) (fun t => t.status.word == 0x0200 && t.rxlen == 1) = true := by
  decide

/-- FB1, FB3: the frame, the checksum, TXF_VALID. -/
theorem test_build :
    nextIs (step (asked 0x9ABC567812349 [] (loaded [])))
      (fun t => t.txf.toList == requestFrame && t.csr == 0x0129 && t.status.word == 0x0020) = true := by decide

/-- RF1. -/
theorem test_reserved5 : nextIs (step (asked 0x5 [] (loaded []))) (fun t => t.status.word == 0x0100) = true := by decide

/-- As RF1, operation code 6. -/
theorem test_reserved6 : nextIs (step (asked 0x6 [] (loaded []))) (fun t => t.status.word == 0x0100) = true := by decide

/-- RF2. -/
theorem test_reserved7 :
    nextIs (step (asked 0xFFFFFFFFFFFFF [] (loaded []))) (fun t => t.status.word == 0x0100) = true := by decide

/-! ### The checksum unit -/

/-- CS8. -/
theorem test_csum :
    nextIs (step (asked 0x0000001100002 [] (built []))) (fun t => t.csr == 0x0129 && t.acc == 297) = true := by decide

/-- RF3, RF6: before any BUILD, and with a above b. -/
theorem test_csum_refused :
    nextIs (step (asked 0x0000001100002 [] (loaded []))) (fun t => t.status.word == 0x0300) = true ∧
    nextIs (step (asked 0x0000000300112 [] (built []))) (fun t => t.status.word == 0x0220 && t.csr == 0x0129) = true := by
  decide

/-- R107 by hand: FF + 01 = 0x0100, stored high byte first. -/
theorem test_verify :
    nextIs (step (asked 0x000200020000B [] (loaded [0xFF, 0x01, 0x01, 0x00])))
      (fun t => t.csr == 0x0100 && t.status.word == 0x0010) = true := by decide

/-- VF4 and VF6. -/
theorem test_verify_mismatch :
    nextIs (step (asked 0x0013001500003 [] (built []))) (fun t => t.csr == 0x0153 && !t.status.vok) = true ∧
    nextIs (step (asked 0x0014001100003 [] (built []))) (fun t => t.csr == 0x0129 && t.status.word == 0x0220) = true := by
  decide

/-- VF1, P1. -/
theorem test_chkframe :
    nextIs (step (asked 0x0013001100003 [] (built []))) (fun t => t.csr == 0x0129 && t.status.word == 0x0030) = true := by
  decide

/-- LD2: the sum of the five bytes. -/
theorem test_csumall :
    nextIs (step (asked 0x000000050000A [] (loaded [1, 2, 3, 4, 5])))
      (fun t => t.csr == 0x000F && t.status.word == 0x0000) = true := by decide

/-- CS6, CS7: the largest sum before the wrap, and one byte more. -/
theorem test_checksum_wraps :
    checksum (List.replicate 257 0xFF) = 0xFFFF ∧ checksum (List.replicate 258 0xFF) = 0x00FE := by
  simp only [checksum, List.map_replicate, List.sum_replicate]
  decide

/-- Section 2.2: the levels of the second tree, and its sum. -/
theorem test_tree :
    treeLevels 1 (treeLeaves 3 [0x4E, 0x57, 0x00, 0x13, 0x06, 0x03, 0x68, 0xFF]) = [165, 19, 9, 359] ∧
    treeLevels 2 (treeLeaves 3 [0x4E, 0x57, 0x00, 0x13, 0x06, 0x03, 0x68, 0xFF]) = [184, 368] ∧
    treeChecksum 3 [0x4E, 0x57, 0x00, 0x13, 0x06, 0x03, 0x68, 0xFF] = 0x0228 := by decide

/-! ### The field operations, each as one step of its own -/

/-- T5, T9: the first negative value, and the lowest. -/
theorem test_f80 :
    nextIs (step (ordered .ttube (loaded (0x80 :: 0x00 :: 0x65 :: z 36)))) (fun t => t.result.ttube.val.toInt == -1) = true ∧
    nextIs (step (ordered .ttube (loaded (0x80 :: 0xFF :: 0xFF :: z 36))))
      (fun t => t.result.ttube.val.toInt == -65435) = true := by decide

/-- T6. -/
theorem test_f81 :
    nextIs (step (ordered .tbox (loaded (0x81 :: 0x00 :: 0x7D :: z 36))))
      (fun t => t.result.tbox.v && t.result.tbox.val.toInt == -25) = true := by decide

/-- T4: +100 with `TEMP_AT_100` = 100, 0 with 0. -/
theorem test_f82 :
    nextIs (step (ordered .tcell (loaded (0x82 :: 0x00 :: 0x64 :: z 36)))) (fun t => t.result.tcell.val.toInt == 100) = true ∧
    nextIs (step (ordered .tcell { loaded (0x82 :: 0x00 :: 0x64 :: z 36) with cfg := ⟨256, .zero, false⟩ }))
      (fun t => t.result.tcell.val.toInt == 0) = true := by decide

/-- DC4, DC5: the payload ends with the buffer, or one byte later. -/
theorem test_f83 :
    nextIs (step (ordered .volt (loaded (z 36 ++ [0x83, 0x0A, 0x50])))) (fun t => t.result.volt == ⟨true, .ok, 2640⟩) = true ∧
    nextIs (step (ordered .volt (loaded (z 37 ++ [0x83, 0x0A])))) (fun t => t.result.volt == ⟨false, .truncated, 0⟩) = true := by
  decide

/-- I4, I11: the top of the low branch and of the high one. -/
theorem test_f84 :
    nextIs (step (ordered .cur (loaded (0x84 :: 0x27 :: 0x10 :: z 36)))) (fun t => t.result.cur == ⟨true, .ok, 10000⟩) = true ∧
    nextIs (step (ordered .cur (loaded (0x84 :: 0xFF :: 0xFF :: z 36)))) (fun t => t.result.cur == ⟨true, .ok, 32767⟩) = true := by
  decide

/-- I5, I7: the edges of the dead zone. -/
theorem test_f84_dead_zone :
    nextIs (step (ordered .cur (loaded (0x84 :: 0x27 :: 0x11 :: z 36))))
      (fun t => t.result.cur == ⟨false, .outOfRange, 0⟩ && t.status.aCur) = true ∧
    nextIs (step (ordered .cur (loaded (0x84 :: 0x7F :: 0xFF :: z 36))))
      (fun t => t.result.cur == ⟨false, .outOfRange, 0⟩ && t.status.aCur) = true := by decide

/-- DC9: the first occurrence, not the second. -/
theorem test_f85 :
    nextIs (step (ordered .soc (loaded ([0x85, 0x4B, 0x85, 0x10] ++ z 35)))) (fun t => t.result.soc == ⟨true, .ok, 75⟩) = true := by
  decide

/-- B5. -/
theorem test_f86 :
    nextIs (step (ordered .ntemp (loaded (0x86 :: 0xFF :: z 37)))) (fun t => t.result.ntemp == ⟨true, .ok, 255⟩) = true := by
  decide

/-- K1. -/
theorem test_f8a :
    nextIs (step (ordered .nstr (loaded (0x8A :: 0x00 :: 0x08 :: z 36)))) (fun t => t.result.nstr == ⟨true, .ok, 8⟩) = true := by
  decide

/-- W7, W8. -/
theorem test_f8b :
    nextIs (step (ordered .warn (loaded (0x8B :: 0xFF :: 0xFF :: z 36))))
      (fun t => t.result.warn == ⟨true, .ok, ⟨0xFFFF, 0x3FFF⟩⟩) = true ∧
    nextIs (step (ordered .warn (loaded (0x8B :: 0x01 :: 0x00 :: z 36))))
      (fun t => t.result.warn == ⟨true, .ok, ⟨0x0100, 0x0100⟩⟩ && activeWarnings t == [.batteryBoxOvertemp]) = true := by
  decide

/-- B8, B9. -/
theorem test_f9d :
    nextIs (step (ordered .bal (loaded (0x9D :: 0x01 :: z 37)))) (fun t => t.result.bal == ⟨true, .ok, 1⟩) = true ∧
    nextIs (step (ordered .bal (loaded (0x9D :: 0xFF :: z 37)))) (fun t => t.result.bal == ⟨true, .ok, 0⟩) = true := by decide

/-- K3. -/
theorem test_fad :
    nextIs (step (ordered .calma (loaded (0xAD :: 0x03 :: 0xE8 :: z 36)))) (fun t => t.result.calma == ⟨true, .ok, 1000⟩) = true := by
  decide

/-- SW3: the mask of the bytes FF and 80. -/
theorem test_fb7 :
    nextIs (step (ordered .swver (loaded
        ([0xB7, 0x31, 0x31, 0x2E, 0x58, 0x57, 0x5F, 0x53, 0x31, 0x31, 0x2E, 0x32, 0x36, 0x00, 0xFF, 0x80] ++ z 23))))
      (fun t => t.result.swver.v && t.result.swver.val.bad == 0x6000 && t.result.swver.val.bytes[1] == 0x31 &&
        t.result.swver.val.bytes[2] == 0x2E && t.result.swver.val.bytes[14] == 0x80) = true := by decide

/-- SW2: fourteen bytes of fifteen. -/
theorem test_fb7_truncated :
    nextIs (step (ordered .swver (loaded
        (z 24 ++ [0xB7, 0x41, 0x42, 0x43, 0x44, 0x45, 0x46, 0x47, 0x48, 0x49, 0x4A, 0x4B, 0x4C, 0x4D, 0x4E]))))
      (fun t => !t.result.swver.v && t.result.swver.fs == .truncated) = true := by decide

/-- B10, B13. -/
theorem test_fb8 :
    nextIs (step (ordered .calst (loaded (0xB8 :: 0x00 :: z 37))))
      (fun t => t.result.calst == ⟨true, .ok, ⟨0, 0⟩⟩ && !t.status.aCal) = true ∧
    nextIs (step (ordered .calst (loaded (0xB8 :: 0xFF :: z 37))))
      (fun t => t.result.calst == ⟨true, .ok, ⟨2, 255⟩⟩ && t.status.aCal) = true := by decide

/-- K5. -/
theorem test_fb9 :
    nextIs (step (ordered .cap (loaded (0xB9 :: 0x01 :: 0x18 :: z 36)))) (fun t => t.result.cap == ⟨true, .ok, 280⟩) = true := by
  decide

/-- B6. -/
theorem test_fc0 :
    nextIs (step (ordered .proto (loaded (0xC0 :: 0xFF :: z 37)))) (fun t => t.result.proto == ⟨true, .ok, 255⟩) = true := by
  decide

/-- CL7. -/
theorem test_f79 :
    nextIs (step (ordered .cells (loaded cl7)))
      (fun t => t.result.cells.v && t.result.cells.val.ncell == 3 && t.result.cells.val.cell[0] == ⟨1, 3300⟩ &&
        t.result.cells.val.cell[2] == ⟨3, 3280⟩ && t.result.cells.val.cell[3] == ⟨0, 0⟩) = true := by decide

/-- CL5, CL6: a bad length, and truncation first. -/
theorem test_f79_failures :
    nextIs (step (ordered .cells (loaded (z 32 ++ [0x79, 0x04, 0x01, 0x0C, 0xE4, 0x02, 0x00]))))
      (fun t => t.result.cells.fs == .outOfRange && t.status.aCell) = true ∧
    nextIs (step (ordered .cells (loaded (z 35 ++ [0x79, 0x04, 0x01, 0x0C]))))
      (fun t => t.result.cells.fs == .truncated && !t.status.aCell) = true := by decide

/-- CL7 after F79, and with no cells. -/
theorem test_fdelta :
    nextIs (step (ordered .delta (runF79 (loaded cl7)))) (fun t => t.result.delta == ⟨true, .ok, 50⟩) = true ∧
    nextIs (step (ordered .delta (loaded cl7))) (fun t => t.result.delta == ⟨false, .emptySource, 0⟩) = true := by decide

/-- DC2, DC3: the guard at 38 and 39 bytes. -/
theorem test_decode_guard :
    nextIs (step (asked 0x4 [] (loaded (z 38)))) (fun t => t.status.word == 0x0040 && t.result.volt.fs == .undersized) = true ∧
    nextIs (step (asked 0x4 [] (loaded (z 39)))) (fun t => t.status.word == 0x0041 && t.result.volt.fs == .tagNotFound) = true := by
  decide

/-! ### Witnesses: states and operands that meet the hypotheses of each obligation, clause by clause, at the boundaries -/

theorem witness_DecodeOfEncodeIsTheInstruction :
    (Instr.load 0xFFFF).wellFormed = true ∧ (Instr.csum .rxb 1 0xFFFF).wellFormed = true ∧
    (Instr.csumall 0).wellFormed = true ∧ (Instr.verify .txf 0xFFFF 0 0xFFFF).wellFormed = true ∧
    Instr.chkframe.wellFormed = true ∧ Instr.fdelta.wellFormed = true := by decide

/-- One word for each of the eight operation codes, the ignored bits set. -/
theorem witness_OperationCodeSelectsTheCommand :
    (0xFFFFFFFFFFFF8 : BitVec 52).toNat % 8 = 0 ∧ (0xFFFFFFFFFFFF9 : BitVec 52).toNat % 8 = 1 ∧
    (0xFFFFFFFFFFFFA : BitVec 52).toNat % 8 = 2 ∧ (0xFFFFFFFFFFFFB : BitVec 52).toNat % 8 = 3 ∧
    (0xFFFFFFFFFFFFC : BitVec 52).toNat % 8 = 4 ∧ (0xFFFFFFFFFFFFD : BitVec 52).toNat % 8 = 5 ∧
    (0xFFFFFFFFFFFFE : BitVec 52).toNat % 8 = 6 ∧ (0xFFFFFFFFFFFFF : BitVec 52).toNat % 8 = 7 := by decide

/-- Both branches: the first tag, and the byte after it. -/
theorem witness_OnlyTheSixteenTagBytesDecode :
    (0x79 : Byte) ∈ ([0x79, 0x80, 0x81, 0x82, 0x83, 0x84, 0x85, 0x86, 0x8A, 0x8B, 0x9D, 0xAD, 0xB7, 0xB8, 0xB9, 0xC0] : List Byte) ∧
    (0x7A : Byte) ∉ ([0x79, 0x80, 0x81, 0x82, 0x83, 0x84, 0x85, 0x86, 0x8A, 0x8B, 0x9D, 0xAD, 0xB7, 0xB8, 0xB9, 0xC0] : List Byte) := by
  decide

/-- A command that is performed. -/
theorem witness_StepRunsTheDecodedCommand :
    (asked 0x50 [1, 2, 3, 4, 5] (loaded [])).seq = [] ∧
    (asked 0x50 [1, 2, 3, 4, 5] (loaded [])).cmdIn = [⟨0x50, [1, 2, 3, 4, 5]⟩] ∧ decode (.cw 0x50) = .ok (.load 5) ∧
    nextIs (exec (.load 5) { asked 0x50 [1, 2, 3, 4, 5] (loaded []) with cmdIn := [], dataIn := [1, 2, 3, 4, 5] })
      (fun _ => true) = true := by decide

/-- A LOAD whose bytes are too few. -/
theorem witness_StepRunsTheDecodedCommand_refused :
    (asked 0x50 [1] (loaded [])).seq = [] ∧ (asked 0x50 [1] (loaded [])).cmdIn = [⟨0x50, [1]⟩] ∧
    decode (.cw 0x50) = .ok (.load 5) ∧
    refusedAtThePorts (exec (.load 5) { asked 0x50 [1] (loaded []) with cmdIn := [], dataIn := [1] }) = true := by decide

theorem witness_StepRunsTheFieldOperation :
    (ordered .cells (loaded cl7)).seq = [FieldId.cells] := by decide

theorem witness_StepWithoutACommandWaits : (loaded cl7).seq = [] ∧ (loaded cl7).cmdIn = [] := by decide

/-- A state with a command waiting and bytes in the buffer. -/
def waiting : State := asked 0x4 [] (loaded (z 37 ++ [0x85, 0x4B]))

theorem witness_inv : Inv waiting where
  cfgOk := by unfold Config.Ok; decide
  memWf := by decide
  memBound := by decide
  lenBound := by decide
  noOps := rfl
  noData := rfl
  causeOk := by intro f; cases f <;> decide
  absentZero := by constructor <;> intro _ <;> rfl
  frameBuilt := by decide
  cellCount := by decide
  cellTail := by decide
  calStates := by decide
  curSign := by decide
  warnSet := by decide
  badBytes := by decide
  deltaPresent := by decide
  curAnomaly := by decide
  calAnomalous := by decide
  cellAnomaly := by decide
  beforeDecode := fun _ => ⟨rfl, rfl⟩
  afterDecode := by intro h; cases h
  guardFailed := by intro h; cases h

/-- The waiting DECODE runs and finds a field. -/
theorem witness_EveryStepKeepsTheInvariant :
    Inv waiting ∧ nextIs (step waiting) (fun t => t.result.soc == ⟨true, .ok, 75⟩) = true := ⟨witness_inv, by decide⟩

/-- From the reset state, whatever `BUF_MAX` is: no bytes, and the least `BUF_MAX` can hold. -/
theorem witness_EveryCommandIsDefinedAfterReset :
    ((0 : U16).toNat ≤ State.reset.cfg.bufMax ∧ ([] : List Byte).length = (0 : U16).toNat) ∧
    ((39 : U16).toNat ≤ State.reset.cfg.bufMax ∧ (z 39).length = (39 : U16).toNat) :=
  ⟨⟨Nat.zero_le _, rfl⟩, ⟨Nat.le_add_left 39 _, rfl⟩⟩

/-- `BUF_MAX` bytes are taken, one more is refused. -/
theorem witness_LoadFillsTheBuffer :
    Memory.wf (loaded p2).rxb ∧ (loaded p2).cfg.bufMax < (257 : U16).toNat ∧
    (256 : U16).toNat ≤ (loaded p2).cfg.bufMax ∧ { loaded p2 with dataIn := z 256 }.dataIn.length = (256 : U16).toNat :=
  ⟨by decide, by decide, by decide, List.length_replicate⟩

theorem witness_LoadWithTheWrongNumberOfBytesStops :
    (256 : U16).toNat ≤ (loaded []).cfg.bufMax ∧ (loaded []).dataIn.length ≠ (256 : U16).toNat := by decide

theorem witness_BuiltFrameVerifies : ∃ t, exec .build (loaded cl7) = .next t := ⟨_, rfl⟩

/-- No BUILD yet; a range one byte too long, and one that ends before it starts; the longest range and the empty one at the
end, of either source. -/
theorem witness_CsumSumsTheRange :
    (loaded []).status.txfValid = false ∧
    ((built []).status.txfValid = true ∧ ¬((0 : U16).toNat ≤ (22 : U16).toNat ∧ (22 : U16).toNat ≤ srcLen (built []) .txf)) ∧
    ¬((17 : U16).toNat ≤ (3 : U16).toNat ∧ (3 : U16).toNat ≤ srcLen (built []) .txf) ∧
    ((0 : U16).toNat ≤ (21 : U16).toNat ∧ (21 : U16).toNat ≤ srcLen (built []) .txf) ∧
    ((39 : U16).toNat ≤ (39 : U16).toNat ∧ (39 : U16).toNat ≤ srcLen (loaded cl7) .rxb) := by decide

/-- The stored bytes one index too far, and at the very end. -/
theorem witness_VerifyComparesWithTheStoredBytes :
    (loaded []).status.txfValid = false ∧
    ((built []).status.txfValid = true ∧
      ¬((0 : U16).toNat ≤ (17 : U16).toNat ∧ (17 : U16).toNat ≤ srcLen (built []) .txf ∧
        (20 : U16).toNat + 2 ≤ srcLen (built []) .txf)) ∧
    ((0 : U16).toNat ≤ (21 : U16).toNat ∧ (21 : U16).toNat ≤ srcLen (built []) .txf ∧
      (19 : U16).toNat + 2 ≤ srcLen (built []) .txf) ∧
    ((39 : U16).toNat ≤ (39 : U16).toNat ∧ (39 : U16).toNat ≤ srcLen (loaded cl7) .rxb ∧
      (37 : U16).toNat + 2 ≤ srcLen (loaded cl7) .rxb) := by decide

theorem witness_ChkframeChecksTheFrame :
    (loaded []).status.txfValid = false ∧ (built []).status.txfValid = true := by decide

theorem witness_AccumulatorCannotOverflow : (List.replicate 65535 (0xFF : Byte)).length ≤ 65535 := by
  rw [List.length_replicate]

/-- The least `TREE_W`, 2, over a list that takes two passes. -/
theorem witness_ReductionTreeComputesTheChecksum :
    1 ≤ 1 ∧ treeChecksum 1 [0xFF, 0xFF, 0x02] = 0x0200 := by decide

theorem witness_TreeNodesFitTheirLevelsWidth :
    255 ∈ treeLevels 0 (treeLeaves 1 [0xFF, 0xFF]) ∧ 510 ∈ treeLevels 1 (treeLeaves 1 [0xFF, 0xFF]) := by decide

theorem witness_ChecksumIsAdditive : ([0xFF, 0x01] : List Byte).Perm [0x01, 0xFF] ∧ 1 < ([0xFF, 0x01] : List Byte).length := by
  decide

/-- No tag; a two-byte payload one byte short; one that ends with the buffer (DC3, DC5, DC4). -/
theorem witness_PairField :
    NoTag (loaded (z 39)) 0x83 ∧
    (FirstAt (loaded (z 37 ++ [0x83, 0x0A])) 0x83 37 ∧ (loaded (z 37 ++ [0x83, 0x0A])).rxlen.toNat ≤ 37 + 2) ∧
    (FirstAt (loaded (z 36 ++ [0x83, 0x0A, 0x50])) 0x83 36 ∧ 36 + 2 < (loaded (z 36 ++ [0x83, 0x0A, 0x50])).rxlen.toNat) := by
  unfold NoTag FirstAt
  decide

/-- The same for a one-byte payload (DC8, DC7). -/
theorem witness_ByteField :
    NoTag (loaded (z 39)) 0x85 ∧
    (FirstAt (loaded (z 38 ++ [0x85])) 0x85 38 ∧ (loaded (z 38 ++ [0x85])).rxlen.toNat ≤ 38 + 1) ∧
    (FirstAt (loaded (z 37 ++ [0x85, 0x4B])) 0x85 37 ∧ 37 + 1 < (loaded (z 37 ++ [0x85, 0x4B])).rxlen.toNat) := by
  unfold NoTag FirstAt
  decide

/-- The four edges of the current's ranges (I4, I5, I7, I8). -/
theorem witness_CurrentField :
    (FirstAt (loaded (0x84 :: 0x27 :: 0x10 :: z 36)) 0x84 0 ∧ rawPair (loaded (0x84 :: 0x27 :: 0x10 :: z 36)) 0 = 10000) ∧
    (FirstAt (loaded (0x84 :: 0x27 :: 0x11 :: z 36)) 0x84 0 ∧ rawPair (loaded (0x84 :: 0x27 :: 0x11 :: z 36)) 0 = 10001) ∧
    (FirstAt (loaded (0x84 :: 0x7F :: 0xFF :: z 36)) 0x84 0 ∧ rawPair (loaded (0x84 :: 0x7F :: 0xFF :: z 36)) 0 = 32767) ∧
    (FirstAt (loaded (0x84 :: 0x80 :: 0x00 :: z 36)) 0x84 0 ∧ rawPair (loaded (0x84 :: 0x80 :: 0x00 :: z 36)) 0 = 32768) := by
  unfold FirstAt
  decide

/-- Balance and calibration bytes 0, 1 and 2 (B7 to B12). -/
theorem witness_BalanceField_CalibrationField :
    (FirstAt (loaded (0x9D :: 0x00 :: z 37)) 0x9D 0 ∧ rawByte (loaded (0x9D :: 0x00 :: z 37)) 0 = 0) ∧
    (FirstAt (loaded (0x9D :: 0x01 :: z 37)) 0x9D 0 ∧ rawByte (loaded (0x9D :: 0x01 :: z 37)) 0 = 1) ∧
    (FirstAt (loaded (0xB8 :: 0x00 :: z 37)) 0xB8 0 ∧ rawByte (loaded (0xB8 :: 0x00 :: z 37)) 0 = 0) ∧
    (FirstAt (loaded (0xB8 :: 0x01 :: z 37)) 0xB8 0 ∧ rawByte (loaded (0xB8 :: 0x01 :: z 37)) 0 = 1) ∧
    (FirstAt (loaded (0xB8 :: 0x02 :: z 37)) 0xB8 0 ∧ rawByte (loaded (0xB8 :: 0x02 :: z 37)) 0 = 2) := by
  unfold FirstAt
  decide

/-- No length byte; the last payload byte missing; a block that ends with the buffer (CL1, CL3, CL4). -/
theorem witness_CellsField :
    (FirstAt (loaded (z 38 ++ [0x79])) 0x79 38 ∧ (loaded (z 38 ++ [0x79])).rxlen.toNat ≤ 38 + 1) ∧
    (FirstAt (loaded (z 35 ++ [0x79, 0x03, 0x01, 0x0C])) 0x79 35 ∧
      (loaded (z 35 ++ [0x79, 0x03, 0x01, 0x0C])).rxlen.toNat ≤ 35 + 1 + rawByte (loaded (z 35 ++ [0x79, 0x03, 0x01, 0x0C])) 35) ∧
    (FirstAt (loaded (z 34 ++ [0x79, 0x03, 0x01, 0x0C, 0xE4])) 0x79 34 ∧
      34 + 1 + rawByte (loaded (z 34 ++ [0x79, 0x03, 0x01, 0x0C, 0xE4])) 34 <
        (loaded (z 34 ++ [0x79, 0x03, 0x01, 0x0C, 0xE4])).rxlen.toNat) := by
  unfold FirstAt
  decide

/-- A bad length, with partial blocks dropped or kept (CL5, R183). -/
theorem witness_CellsField_length :
    FirstAt (loaded (z 32 ++ [0x79, 0x04, 0x01, 0x0C, 0xE4, 0x02, 0x00])) 0x79 32 ∧
    32 + 1 + rawByte (loaded (z 32 ++ [0x79, 0x04, 0x01, 0x0C, 0xE4, 0x02, 0x00])) 32 <
      (loaded (z 32 ++ [0x79, 0x04, 0x01, 0x0C, 0xE4, 0x02, 0x00])).rxlen.toNat ∧
    rawByte (loaded (z 32 ++ [0x79, 0x04, 0x01, 0x0C, 0xE4, 0x02, 0x00])) 32 % 3 ≠ 0 ∧
    (loaded []).cfg.cellPartial = false ∧ { loaded [] with cfg.cellPartial := true }.cfg.cellPartial = true := by
  unfold FirstAt
  decide

/-- The version's fifteen bytes end with the buffer, or are one short (SW1, SW2, with other bytes). -/
theorem witness_VersionField :
    (FirstAt (loaded (z 23 ++ [0xB7] ++ z 15)) 0xB7 23 ∧ 23 + 15 < (loaded (z 23 ++ [0xB7] ++ z 15)).rxlen.toNat) ∧
    (FirstAt (loaded (z 24 ++ [0xB7] ++ z 14)) 0xB7 24 ∧ (loaded (z 24 ++ [0xB7] ++ z 14)).rxlen.toNat ≤ 24 + 15) := by
  unfold FirstAt
  decide

/-- A reading with `n` cells of 3300 mV. -/
def full (n : BitVec 7) : Reading :=
  { Reading.blank .notDecoded with cells := ⟨true, .ok, ⟨n, Vector.replicate 85 ⟨1, 3300⟩⟩⟩ }

/-- Eighty-five cells, one, none, and an absent cell field. -/
theorem witness_DeltaField :
    ((full 85).cells.v = true ∧ 0 < (full 85).cells.val.ncell.toNat ∧ (full 85).cells.val.ncell.toNat ≤ 85) ∧
    ((full 1).cells.v = true ∧ 0 < (full 1).cells.val.ncell.toNat ∧ (full 1).cells.val.ncell.toNat ≤ 85) ∧
    ((runF79 (loaded (z 34 ++ [0x79, 0x03, 0x01, 0x0C, 0xE4]))).result.cells.v = true ∧
      (runF79 (loaded (z 34 ++ [0x79, 0x03, 0x01, 0x0C, 0xE4]))).result.cells.val.ncell = 1) ∧
    ((runF79 (loaded (z 37 ++ [0x79, 0x00]))).result.cells.v = true ∧
      (runF79 (loaded (z 37 ++ [0x79, 0x00]))).result.cells.val.ncell = 0) ∧
    (loaded []).result.cells.v = false := by decide

theorem witness_ActiveWarningsFollowTheSet : 0 < warningNames.length ∧ 13 < warningNames.length := by decide

theorem witness_UndersizedDecodeIsAllAbsent : (loaded (z 38)).rxlen.toNat ≤ 38 := by decide

theorem witness_DecodeGivesEveryFieldItsRule : 38 < (loaded (z 39)).rxlen.toNat := by decide

/-- Two buffers that differ above the length only, with other results before. -/
theorem witness_DecodeDependsOnTheBufferAlone :
    (loaded (z 39)).cfg = { built (z 39) with rxb := [(40, 7)] }.cfg ∧
    (loaded (z 39)).rxlen = { built (z 39) with rxb := [(40, 7)] }.rxlen ∧
    (∀ i, i < 39 → byteAt (loaded (z 39)) i = byteAt { built (z 39) with rxb := [(40, 7)] } i) ∧
    (∃ t, exec .decode (loaded (z 39)) = .next t) ∧
    ∃ t, exec .decode { built (z 39) with rxb := [(40, 7)] } = .next t :=
  ⟨by decide, by decide, by decide, ⟨_, rfl⟩, ⟨_, rfl⟩⟩

theorem witness_FieldsFailIndependently :
    38 < (loaded cl7).rxlen.toNat ∧ FieldId.cells ≠ .delta ∧ ∃ t, exec .decode (loaded cl7) = .next t :=
  ⟨by decide, by decide, ⟨_, rfl⟩⟩

theorem witness_TagOperationOrderIsNotObservable : tagOps.reverse.Perm tagOps := List.reverse_perm tagOps

theorem witness_DecodeIsItsSequenceOfOperations :
    38 < (loaded cl7).rxlen.toNat ∧ (loaded cl7).seq = [] ∧ ∃ t, exec .decode (loaded cl7) = .next t :=
  ⟨by decide, by decide, ⟨_, rfl⟩⟩

theorem witness_ReservedCodesAreRefused :
    5 ≤ (0x5 : BitVec 52).toNat % 8 ∧ 5 ≤ (0xFFFFFFFFFFFFF : BitVec 52).toNat % 8 := by decide

/-- A refused command, a performed one, and each of the two that are always performed. -/
theorem witness_RefusedCommandChangesOnlyErr :
    (fieldOf (.csum .txf 0 17) = none ∧ nextIs (exec (.csum .txf 0 17) (loaded [])) (fun t => t.status.err == .uninit) = true) ∧
    (fieldOf (.csum .txf 0 17) = none ∧ nextIs (exec (.csum .txf 0 17) (built [])) (fun t => t.status.err == .none) = true) ∧
    (fieldOf .build = none ∧ nextIs (exec .build (loaded [])) (fun t => t.status.err == .none) = true) ∧
    (fieldOf .decode = none ∧ nextIs (exec .decode (loaded [])) (fun t => t.status.err == .none) = true) := by decide

/-- For each premise of the table of writers, a command that makes it true. -/
theorem witness_EachElementHasItsWriters :
    nextIs (exec (.load 1) { loaded [] with dataIn := [7] })
      (fun t => t.rxb != (loaded []).rxb && t.rxlen != (loaded []).rxlen) = true ∧
    nextIs (exec .build (loaded []))
      (fun t => t.txf != (loaded []).txf && t.status.txfValid && t.csr != (loaded []).csr) = true ∧
    nextIs (exec (.csum .txf 0 21) (built [])) (fun t => t.csr != (built []).csr) = true ∧
    nextIs (exec .chkframe (built [])) (fun t => t.status.vok) = true ∧
    nextIs (exec .decode (loaded cl7))
      (fun t => t.result != (loaded cl7).result && t.status.lenOk && t.status.decDone) = true := by decide

/-- A byte beyond the length that differs. -/
theorem witness_BytesBeyondTheLengthAreUnreachable :
    (∀ n, Instr.csumall 2 ≠ .load n) ∧
    (∀ j, j < (loaded [1, 2]).rxlen.toNat → Memory.read [(0, 1), (1, 2), (2, 0x85)] j = Memory.read (loaded [1, 2]).rxb j) ∧
    nextIs (exec (.csumall 2) (loaded [1, 2])) (fun t => t.csr == 3) = true :=
  ⟨by simp, by decide, by decide⟩

theorem witness_RepeatingACommandChangesNothing :
    fieldOf (.csumall 2) = none ∧ (∀ n, Instr.csumall 2 ≠ .load n) ∧
    nextIs (exec (.csumall 2) (loaded [1, 2])) (fun t => t.csr == 3) = true :=
  ⟨rfl, by simp, by decide⟩

theorem witness_StatusWordLayout : 11 ≤ 11 ∧ 11 ≤ 15 := by decide

end Sys2Proof.Tests
end

section
/-! SUPPORT. The invariant in two halves: what it says of the buffer, the sequencer and the frame (`StoreInv`), and what it
says of the reading and the flags that go with it (`ReadingInv`). -/

namespace Sys2Proof.Machine

/-- The half of `Inv` about the parameters, the buffer, the sequencer and the frame. -/
structure StoreInv (s : State) : Prop where
  cfgOk : s.cfg.Ok
  memWf : Memory.wf s.rxb
  memBound : ∀ c ∈ s.rxb, c.1 < s.cfg.bufMax
  lenBound : s.rxlen.toNat ≤ s.cfg.bufMax
  noOps : s.seq = []
  frameBuilt : s.status.txfValid = true → s.txf.toList = requestFrame

/-- The half of `Inv` about the reading, the anomaly bits, `LEN_OK` and `DEC_DONE`. -/
structure ReadingInv (s : State) : Prop where
  causeOk : ∀ f, s.result.cause f = .ok ↔ s.result.valid f = true
  absentZero : AbsentReadsZero s.result
  cellCount : s.result.cells.val.ncell.toNat ≤ 85
  cellTail : ∀ j : Fin 85, s.result.cells.val.ncell.toNat ≤ j.val → s.result.cells.val.cell[j] = ⟨0, 0⟩
  calStates : s.result.calst.val.st ≠ 3
  curSign : 0 ≤ s.result.cur.val.toInt
  warnSet : s.result.warn.val.wset = s.result.warn.val.warn.setWidth 14
  badBytes : ∀ i : Fin 15, s.result.swver.val.bad.getLsbD i.val = true ↔ 128 ≤ (s.result.swver.val.bytes[i]).toNat
  deltaPresent : s.result.delta.v = true ↔ s.result.cells.v = true ∧ s.result.cells.val.ncell ≠ 0
  curAnomaly : s.status.aCur = true ↔ s.result.cur.fs = .outOfRange
  calAnomalous : s.status.aCal = true ↔ s.result.calst.val.st = 2
  cellAnomaly : s.cfg.cellPartial = false → (s.status.aCell = true ↔ s.result.cells.fs = .outOfRange)
  beforeDecode : s.status.decDone = false → s.result = Reading.blank .notDecoded ∧ s.status.lenOk = false
  afterDecode : s.status.decDone = true → ∀ f, s.result.cause f ≠ .notDecoded
  guardFailed : s.status.decDone = true → s.status.lenOk = false → s.result = Reading.blank .undersized

/-- The invariant is its two halves, with nothing on DATA_IN. -/
theorem inv_iff {s : State} : Inv s ↔ StoreInv s ∧ ReadingInv s ∧ s.dataIn = [] :=
  ⟨fun h => ⟨{ h with }, { h with }, h.noData⟩, fun ⟨hs, hr, hd⟩ => { hs, hr with noData := hd }⟩

theorem StoreInv.of_eq {s t : State} (h : StoreInv s) (hcfg : t.cfg = s.cfg) (hrxb : t.rxb = s.rxb)
    (hrxlen : t.rxlen = s.rxlen) (hseq : t.seq = s.seq) (htxf : t.txf = s.txf)
    (hvalid : t.status.txfValid = s.status.txfValid) : StoreInv t := by
  obtain ⟨h1, h2, h3, h4, h5, h6⟩ := h
  constructor <;> simp only [hcfg, hrxb, hrxlen, hseq, htxf, hvalid] <;> assumption

theorem ReadingInv.of_eq {s t : State} (h : ReadingInv s) (hcfg : t.cfg = s.cfg) (hresult : t.result = s.result)
    (hlenOk : t.status.lenOk = s.status.lenOk) (hcur : t.status.aCur = s.status.aCur)
    (hcal : t.status.aCal = s.status.aCal) (hcell : t.status.aCell = s.status.aCell)
    (hdone : t.status.decDone = s.status.decDone) : ReadingInv t := by
  obtain ⟨h1, h2, h3, h4, h5, h6, h7, h8, h9, h10, h11, h12, h13, h14, h15⟩ := h
  constructor <;> simp only [hcfg, hresult, hlenOk, hcur, hcal, hcell, hdone] <;> assumption

/-! ### The buffer and the frame -/

/-- LOAD of at most `BUF_MAX` bytes keeps the buffer within its bounds and in canonical form (R21, R22, R53). -/
theorem StoreInv.loadBytes {s : State} {n : U16} (h : StoreInv s) (hn : n.toNat ≤ s.cfg.bufMax)
    (hd : s.dataIn.length = n.toNat) : StoreInv (s.loadBytes n) where
  cfgOk := h.cfgOk
  memWf := Memory.writeBytes_wf h.memWf 0 s.dataIn
  memBound := by
    intro c hc
    rcases Memory.mem_writeBytes hc with hold | ⟨_, hlt⟩
    · exact h.memBound c hold
    · show c.1 < s.cfg.bufMax
      omega
  lenBound := hn
  noOps := h.noOps
  frameBuilt := h.frameBuilt

/-- BUILD leaves the frame of R122. -/
theorem StoreInv.build {s : State} (h : StoreInv s) : StoreInv s.build where
  cfgOk := h.cfgOk
  memWf := h.memWf
  memBound := h.memBound
  lenBound := h.lenBound
  noOps := h.noOps
  frameBuilt := fun _ => by
    rw [State.build_txf, frameBytes_eq]
    rfl

theorem StoreInv.setErr {s : State} (h : StoreInv s) (e : Err) : StoreInv (s.setErr e) :=
  h.of_eq rfl rfl rfl rfl rfl rfl

theorem StoreInv.runDecode {s : State} (h : StoreInv s) : StoreInv (runDecode s) := by
  rw [runDecode_frame]
  exact h.of_eq rfl rfl rfl rfl rfl rfl

theorem exec_keeps_storeInv {i : Instr} {s t : State} (hi : fieldOf i = none) (h : StoreInv s)
    (he : exec i s = .next t) : StoreInv t := by
  rcases exec_command_cases hi he with ⟨e, _, _, _, rfl⟩ | ⟨n, _, hn, hd, rfl⟩ | ⟨_, rfl⟩ |
    ⟨sel, a, b, _, _, _, rfl⟩ | ⟨sel, a, b, c, _, _, _, _, rfl⟩ | ⟨_, rfl⟩
  · exact h.setErr e
  · exact (h.loadBytes hn hd).setErr .none
  · exact h.build.setErr .none
  · exact h.of_eq rfl rfl rfl rfl rfl rfl
  · exact h.of_eq rfl rfl rfl rfl rfl rfl
  · exact h.runDecode

/-! ### Fields written from the cleared reading -/

/-- A failure that a field operation may report: neither OK nor NOT_DECODED (R202). -/
def IsSoftFailure {α : Type} (r : Except Cause α) : Prop := ∀ c, r = .error c → c ≠ .ok ∧ c ≠ .notDecoded

/-- What a DECODE leaves of a field whose value registers read `z` when cleared (R28, R29, R135). -/
structure FieldReg.Decoded {α : Type} (z : α) (f : FieldReg α) : Prop where
  okIff : f.fs = .ok ↔ f.v = true
  decoded : f.fs ≠ .notDecoded
  zeroIfAbsent : ZeroIfAbsent z f

theorem FieldReg.decoded_settle {α : Type} {f : FieldReg α} {r : Except Cause α} (hr : IsSoftFailure r) :
    (f.settle r).Decoded f.val := by
  cases r with
  | ok v => exact ⟨by simp, by simp, nofun⟩
  | error c =>
    obtain ⟨hok, hnd⟩ := hr c rfl
    exact ⟨by simpa using hok, hnd, fun _ => rfl⟩

/-- `FieldReg.Decoded` of the field `f` of a reading. -/
def Reading.FieldDecoded (r : Reading) : FieldId → Prop
  | .cells => r.cells.Decoded (Reading.blank .notDecoded).cells.val
  | .ttube => r.ttube.Decoded (Reading.blank .notDecoded).ttube.val
  | .tbox => r.tbox.Decoded (Reading.blank .notDecoded).tbox.val
  | .tcell => r.tcell.Decoded (Reading.blank .notDecoded).tcell.val
  | .volt => r.volt.Decoded (Reading.blank .notDecoded).volt.val
  | .cur => r.cur.Decoded (Reading.blank .notDecoded).cur.val
  | .soc => r.soc.Decoded (Reading.blank .notDecoded).soc.val
  | .ntemp => r.ntemp.Decoded (Reading.blank .notDecoded).ntemp.val
  | .nstr => r.nstr.Decoded (Reading.blank .notDecoded).nstr.val
  | .warn => r.warn.Decoded (Reading.blank .notDecoded).warn.val
  | .bal => r.bal.Decoded (Reading.blank .notDecoded).bal.val
  | .calma => r.calma.Decoded (Reading.blank .notDecoded).calma.val
  | .swver => r.swver.Decoded (Reading.blank .notDecoded).swver.val
  | .calst => r.calst.Decoded (Reading.blank .notDecoded).calst.val
  | .cap => r.cap.Decoded (Reading.blank .notDecoded).cap.val
  | .proto => r.proto.Decoded (Reading.blank .notDecoded).proto.val
  | .delta => r.delta.Decoded (Reading.blank .notDecoded).delta.val

theorem Reading.FieldDecoded.cause_ok_iff {r : Reading} {f : FieldId} (h : r.FieldDecoded f) :
    r.cause f = .ok ↔ r.valid f = true := by
  cases f <;> exact h.okIff

theorem Reading.FieldDecoded.cause_ne_notDecoded {r : Reading} {f : FieldId} (h : r.FieldDecoded f) :
    r.cause f ≠ .notDecoded := by
  cases f <;> exact h.decoded

theorem Reading.absentReadsZero_of_fieldDecoded {r : Reading} (h : ∀ f, r.FieldDecoded f) : AbsentReadsZero r where
  cells := (h .cells).zeroIfAbsent
  ttube := (h .ttube).zeroIfAbsent
  tbox := (h .tbox).zeroIfAbsent
  tcell := (h .tcell).zeroIfAbsent
  volt := (h .volt).zeroIfAbsent
  cur := (h .cur).zeroIfAbsent
  soc := (h .soc).zeroIfAbsent
  ntemp := (h .ntemp).zeroIfAbsent
  nstr := (h .nstr).zeroIfAbsent
  warn := (h .warn).zeroIfAbsent
  bal := (h .bal).zeroIfAbsent
  calma := (h .calma).zeroIfAbsent
  swver := (h .swver).zeroIfAbsent
  calst := (h .calst).zeroIfAbsent
  cap := (h .cap).zeroIfAbsent
  proto := (h .proto).zeroIfAbsent
  delta := (h .delta).zeroIfAbsent

theorem SameField.fieldDecoded {f : FieldId} {r r' : Reading} (h : SameField f r r') (hd : r'.FieldDecoded f) :
    r.FieldDecoded f := by
  cases f <;> exact (congrArg (FieldReg.Decoded _) h).mpr hd

/-- The cleared reading with any cause a field operation may report. -/
theorem Reading.blank_fieldDecoded {c : Cause} (hok : c ≠ .ok) (hnd : c ≠ .notDecoded) (f : FieldId) :
    (Reading.blank c).FieldDecoded f := by
  cases f <;> exact ⟨by simpa [blank, FieldReg.absentWith] using hok, hnd, fun _ => rfl⟩

/-! ### The outcomes of the field operations -/

theorem IsSoftFailure.map {α β : Type} {r : Except Cause α} (h : IsSoftFailure r) (g : α → β) :
    IsSoftFailure (r.map g) := by
  cases r with
  | ok a => exact nofun
  | error c => exact fun d hd => h d (by cases hd; rfl)

theorem isSoftFailure_of_extraction {α : Type} {r : Except Cause α}
    (h : ∀ c, r = .error c → c = .tagNotFound ∨ c = .truncated) : IsSoftFailure r := by
  intro c hc
  rcases h c hc with rfl | rfl <;> decide

theorem isSoftFailure_extract {m : Memory} {len : Nat} {t : Byte} {k : Nat} : IsSoftFailure (extract m len t k) :=
  isSoftFailure_of_extraction fun _ => extract_error_cause

theorem isSoftFailure_get1 {m : Memory} {len : Nat} {t : Byte} : IsSoftFailure (get1 m len t) :=
  isSoftFailure_of_extraction fun _ => get1_error_cause

theorem isSoftFailure_get2 {m : Memory} {len : Nat} {t : Byte} : IsSoftFailure (get2 m len t) :=
  isSoftFailure_of_extraction fun _ => get2_error_cause

theorem tempField_eq_map (s : State) (t : Byte) :
    tempField s t = (get2 s.rxb s.rxlen.toNat t).map fun r => BitVec.ofInt 17 (tempdec s.cfg.tempAt100 r) := by
  unfold tempField
  cases get2 s.rxb s.rxlen.toNat t <;> rfl

theorem warnField_eq_map (s : State) : warnField s = (get2 s.rxb s.rxlen.toNat 0x8B).map warningsOf := by
  unfold warnField
  cases get2 s.rxb s.rxlen.toNat 0x8B <;> rfl

theorem balField_eq_map (s : State) : balField s = (get1 s.rxb s.rxlen.toNat 0x9D).map balanceOf := by
  unfold balField
  cases get1 s.rxb s.rxlen.toNat 0x9D <;> rfl

theorem calField_eq_map (s : State) : calField s = (get1 s.rxb s.rxlen.toNat 0xB8).map calibrationOf := by
  unfold calField
  cases get1 s.rxb s.rxlen.toNat 0xB8 <;> rfl

theorem versionField_eq_map (s : State) :
    versionField s = (extract s.rxb s.rxlen.toNat 0xB7 verLen).map versionOf := by
  unfold versionField
  cases extract s.rxb s.rxlen.toNat 0xB7 verLen <;> rfl

/-- Every outcome of the current field, with what the anomaly bit makes of it (R157, R205). -/
theorem currentField_cases (s : State) :
    (∃ c, (c = .tagNotFound ∨ c = .truncated) ∧ currentField s = .error c ∧ currentAnomaly s = false) ∨
    (currentField s = .error .outOfRange ∧ currentAnomaly s = true) ∨
    (∃ v, 0 ≤ v ∧ v < 32768 ∧ currentField s = .ok (BitVec.ofInt 16 v) ∧ currentAnomaly s = false) := by
  unfold currentField currentAnomaly
  cases hg : get2 s.rxb s.rxlen.toNat 0x84 with
  | error c => exact .inl ⟨c, get2_error_cause hg, rfl, rfl⟩
  | ok r =>
    have hr := r.isLt
    by_cases hlow : r.toNat ≤ 10000
    · refine .inr (.inr ⟨r.toNat, by omega, by omega, ?_, by simp [inDeadZone, hlow]⟩)
      simp [curdec, hlow]
    · by_cases hhigh : 32768 ≤ r.toNat
      · refine .inr (.inr ⟨(r.toNat : Int) - 32768, by omega, by omega, ?_, by simp [inDeadZone, hhigh]⟩)
        simp [curdec, hlow, hhigh]
      · have hdead : 10000 < r.toNat ∧ r.toNat < 32768 := by omega
        exact .inr (.inl ⟨by simp [curdec, hlow, hhigh], by simp [inDeadZone, hdead]⟩)

/-- Every outcome of the cell field, with what the anomaly bit makes of it (R181, R183, R205). -/
theorem cellsField_cases (s : State) :
    (∃ c, (c = .tagNotFound ∨ c = .truncated) ∧ cellsField s = .error c ∧ cellsAnomaly s = false) ∨
    (cellsField s = .error .outOfRange ∧ cellsAnomaly s = true) ∨
    (∃ p n, n ≤ 85 ∧ cellsField s = .ok (storeCells s.rxb p n s.result.cells.val) ∧
      (s.cfg.cellPartial = false → cellsAnomaly s = false)) := by
  unfold cellsField cellsAnomaly
  cases find s.rxb s.rxlen.toNat 0x79 with
  | none => exact .inl ⟨_, .inl rfl, rfl, rfl⟩
  | some p =>
    have hl := (Memory.read s.rxb (p + 1)).isLt
    by_cases htag : p + 1 ≥ s.rxlen.toNat
    · exact .inl ⟨_, .inr rfl, by simp [htag], by simp [htag]⟩
    by_cases hblock : p + 1 + (Memory.read s.rxb (p + 1)).toNat ≥ s.rxlen.toNat
    · exact .inl ⟨_, .inr rfl, by simp [htag, hblock], by simp [htag, hblock]⟩
    by_cases hbad : (badCellLength (Memory.read s.rxb (p + 1)).toNat && !s.cfg.cellPartial) = true
    · exact .inr (.inl ⟨by simp [htag, hblock, hbad], by simp_all⟩)
    · have hgood : s.cfg.cellPartial = false → badCellLength (Memory.read s.rxb (p + 1)).toNat = false := by
        intro hp
        simpa [hp] using hbad
      exact .inr (.inr ⟨p, (Memory.read s.rxb (p + 1)).toNat / 3, by omega, by simp [htag, hblock, hbad],
        fun hp => by simp [htag, hblock, hgood hp]⟩)

theorem deltaField_of_cells {r : Reading} (h : r.cells.v = true ∧ r.cells.val.ncell ≠ 0) :
    deltaField r = .ok (BitVec.ofNat 16 (spread (decodedMv r))) := by
  simp only [deltaField, Bool.and_eq_true, bne_iff_ne, if_pos h]

theorem deltaField_of_no_cells {r : Reading} (h : ¬(r.cells.v = true ∧ r.cells.val.ncell ≠ 0)) :
    deltaField r = .error .emptySource := by
  simp only [deltaField, Bool.and_eq_true, bne_iff_ne, if_neg h]

theorem isSoftFailure_tempField (s : State) (t : Byte) : IsSoftFailure (tempField s t) :=
  tempField_eq_map s t ▸ isSoftFailure_get2.map _

theorem isSoftFailure_warnField (s : State) : IsSoftFailure (warnField s) :=
  warnField_eq_map s ▸ isSoftFailure_get2.map _

theorem isSoftFailure_balField (s : State) : IsSoftFailure (balField s) :=
  balField_eq_map s ▸ isSoftFailure_get1.map _

theorem isSoftFailure_calField (s : State) : IsSoftFailure (calField s) :=
  calField_eq_map s ▸ isSoftFailure_get1.map _

theorem isSoftFailure_versionField (s : State) : IsSoftFailure (versionField s) :=
  versionField_eq_map s ▸ isSoftFailure_extract.map _

theorem isSoftFailure_currentField (s : State) : IsSoftFailure (currentField s) := by
  rcases currentField_cases s with ⟨c, hc, he, _⟩ | ⟨he, _⟩ | ⟨v, _, _, he, _⟩ <;> rw [he]
  · exact isSoftFailure_of_extraction fun d hd => by cases hd; exact hc
  · exact fun d hd => by cases hd; decide
  · exact nofun

theorem isSoftFailure_cellsField (s : State) : IsSoftFailure (cellsField s) := by
  rcases cellsField_cases s with ⟨c, hc, he, _⟩ | ⟨he, _⟩ | ⟨p, n, _, he, _⟩ <;> rw [he]
  · exact isSoftFailure_of_extraction fun d hd => by cases hd; exact hc
  · exact fun d hd => by cases hd; decide
  · exact nofun

theorem isSoftFailure_deltaField (r : Reading) : IsSoftFailure (deltaField r) := by
  by_cases h : r.cells.v = true ∧ r.cells.val.ncell ≠ 0
  · rw [deltaField_of_cells h]
    exact nofun
  · rw [deltaField_of_no_cells h]
    exact fun d hd => by cases hd; decide

/-! ### What the value registers hold -/

theorem blank_cell (c : Cause) (j : Fin 85) : (Reading.blank c).cells.val.cell[j] = ⟨0, 0⟩ := by
  simp [Reading.blank, FieldReg.absentWith]

theorem blank_bad_iff (c : Cause) (i : Fin 15) :
    (Reading.blank c).swver.val.bad.getLsbD i.val = true ↔ 128 ≤ ((Reading.blank c).swver.val.bytes[i]).toNat := by
  simp [Reading.blank, FieldReg.absentWith]

/-- A settled field holds the value it held before or the outcome's. -/
theorem FieldReg.settle_map_val {α β : Type} {P : β → Prop} {f : FieldReg β} {r : Except Cause α} {g : α → β}
    (hold : P f.val) (hnew : ∀ a, P (g a)) : P (f.settle (r.map g)).val := by
  cases r with
  | ok a => exact hnew a
  | error c => exact hold

theorem calibrationOf_st_ne_three (raw : Byte) : (calibrationOf raw).st ≠ 3 := by
  simp only [calibrationOf]
  split
  · decide
  · split <;> decide

theorem calibrationOf_st_eq_two_iff (raw : Byte) : (calibrationOf raw).st = 2 ↔ calUnknown raw = true := by
  unfold calibrationOf calUnknown
  by_cases h1 : raw = 1
  · subst h1
    decide
  · by_cases h0 : raw = 0
    · subst h0
      decide
    · simp only [h1, h0, if_false, true_iff, Bool.and_eq_true, bne_iff_ne]
      exact ⟨h0, h1⟩

theorem calAnomaly_iff (s : State) :
    calAnomaly s = true ↔ (((Reading.blank .notDecoded).calst.settle (calField s)).val.st = 2) := by
  rw [calField_eq_map]
  unfold calAnomaly
  cases get1 s.rxb s.rxlen.toNat 0xB8 with
  | error c => exact iff_of_false Bool.false_ne_true (show (0 : BitVec 2) ≠ 2 by decide)
  | ok r => exact (calibrationOf_st_eq_two_iff r).symm

/-- Bit `i` of the mask tells whether byte `i` is 0x80 or above (R31). -/
theorem testBit_badMask (l : List Byte) (i : Nat) : (badMask l).testBit i = decide (128 ≤ (l.getD i 0).toNat) := by
  induction l generalizing i with
  | nil => simp [badMask]
  | cons d ds ih =>
    have hshift : badMask (d :: ds) / 2 = badMask ds := by
      simp only [badMask]
      split <;> omega
    cases i with
    | zero =>
      simp only [badMask, Nat.testBit_zero, List.getD_cons_zero]
      split <;> simp_all
    | succ i => rw [Nat.testBit_succ, hshift, ih, List.getD_cons_succ]

theorem versionOf_bad_iff (l : List Byte) (i : Fin 15) :
    (versionOf l).bad.getLsbD i.val = true ↔ 128 ≤ ((versionOf l).bytes[i]).toNat := by
  simp [versionOf, BitVec.getLsbD_ofNat, testBit_badMask, -BitVec.getLsbD_eq_getElem]

/-- Storing at most 85 groups in cleared cell registers leaves the count and the (0, 0) tail of R30. -/
theorem storeCells_tail {m : Memory} {p n : Nat} (hn : n ≤ 85) {old : CellBlock}
    (hold : ∀ j : Fin 85, old.cell[j] = ⟨0, 0⟩) :
    (storeCells m p n old).ncell.toNat ≤ 85 ∧
      ∀ j : Fin 85, (storeCells m p n old).ncell.toNat ≤ j.val → (storeCells m p n old).cell[j] = ⟨0, 0⟩ := by
  have hcount : (storeCells m p n old).ncell.toNat = n := by
    simp only [storeCells, BitVec.toNat_ofNat]
    omega
  refine ⟨by omega, fun j hj => ?_⟩
  have hjn : ¬ j.val < n := by omega
  simpa [storeCells, hjn] using hold j

/-! ### DECODE -/

/-- Over the cleared reading every field operation leaves its field decoded. -/
theorem runField_prologue_fieldDecoded (s : State) (f : FieldId) :
    (runField f (prologue s)).result.FieldDecoded f := by
  cases f with
  | cells => exact FieldReg.decoded_settle (isSoftFailure_cellsField _)
  | ttube => exact FieldReg.decoded_settle (isSoftFailure_tempField _ _)
  | tbox => exact FieldReg.decoded_settle (isSoftFailure_tempField _ _)
  | tcell => exact FieldReg.decoded_settle (isSoftFailure_tempField _ _)
  | volt => exact FieldReg.decoded_settle isSoftFailure_get2
  | cur => exact FieldReg.decoded_settle (isSoftFailure_currentField _)
  | soc => exact FieldReg.decoded_settle isSoftFailure_get1
  | ntemp => exact FieldReg.decoded_settle isSoftFailure_get1
  | nstr => exact FieldReg.decoded_settle isSoftFailure_get2
  | warn => exact FieldReg.decoded_settle (isSoftFailure_warnField _)
  | bal => exact FieldReg.decoded_settle (isSoftFailure_balField _)
  | calma => exact FieldReg.decoded_settle isSoftFailure_get2
  | swver => exact FieldReg.decoded_settle (isSoftFailure_versionField _)
  | calst => exact FieldReg.decoded_settle (isSoftFailure_calField _)
  | cap => exact FieldReg.decoded_settle isSoftFailure_get2
  | proto => exact FieldReg.decoded_settle isSoftFailure_get1
  | delta => exact FieldReg.decoded_settle (isSoftFailure_deltaField (prologue s).result)

/-- A DECODE leaves every field decoded, whether or not the guard lets it search (R131, R137, R206). -/
theorem runDecode_fieldDecoded (s : State) (f : FieldId) : (runDecode s).result.FieldDecoded f := by
  by_cases h : 38 < s.rxlen.toNat
  · by_cases hf : f = .delta
    · subst hf
      simp only [Reading.FieldDecoded, runDecode_delta s h]
      exact FieldReg.decoded_settle (isSoftFailure_deltaField _)
    · exact (runDecode_field s h hf).fieldDecoded (runField_prologue_fieldDecoded s f)
  · rw [runDecode_short s (by omega)]
    exact Reading.blank_fieldDecoded (by decide) (by decide) f

section

variable {s : State} (h : 38 < s.rxlen.toNat)
include h

theorem runDecode_cells :
    (runDecode s).result.cells = (Reading.blank .notDecoded).cells.settle (cellsField (prologue s)) :=
  runDecode_field s h (f := .cells) nofun

theorem runDecode_cur :
    (runDecode s).result.cur = (Reading.blank .notDecoded).cur.settle (currentField (prologue s)) :=
  runDecode_field s h (f := .cur) nofun

theorem runDecode_warn :
    (runDecode s).result.warn = (Reading.blank .notDecoded).warn.settle (warnField (prologue s)) :=
  runDecode_field s h (f := .warn) nofun

theorem runDecode_swver :
    (runDecode s).result.swver = (Reading.blank .notDecoded).swver.settle (versionField (prologue s)) :=
  runDecode_field s h (f := .swver) nofun

theorem runDecode_calst :
    (runDecode s).result.calst = (Reading.blank .notDecoded).calst.settle (calField (prologue s)) :=
  runDecode_field s h (f := .calst) nofun

theorem runDecode_cells_tail :
    (runDecode s).result.cells.val.ncell.toNat ≤ 85 ∧
      ∀ j : Fin 85, (runDecode s).result.cells.val.ncell.toNat ≤ j.val →
        (runDecode s).result.cells.val.cell[j] = ⟨0, 0⟩ := by
  rw [runDecode_cells h]
  rcases cellsField_cases (prologue s) with ⟨c, _, he, _⟩ | ⟨he, _⟩ | ⟨p, n, hn, he, _⟩ <;> rw [he]
  · exact ⟨Nat.zero_le 85, fun j _ => blank_cell _ j⟩
  · exact ⟨Nat.zero_le 85, fun j _ => blank_cell _ j⟩
  · exact storeCells_tail hn (blank_cell _)

/-- `R_CUR` holds 0, or one of the values of R155, none of them negative (R27). -/
theorem runDecode_cur_nonneg : 0 ≤ (runDecode s).result.cur.val.toInt := by
  rw [runDecode_cur h]
  rcases currentField_cases (prologue s) with ⟨c, _, he, _⟩ | ⟨he, _⟩ | ⟨v, h0, hlt, he, _⟩ <;> rw [he]
  · exact Int.le_refl 0
  · exact Int.le_refl 0
  · rw [FieldReg.settle_ok, BitVec.toInt_ofInt, Int.bmod_def]
    omega

theorem runDecode_aCur_iff : (runDecode s).status.aCur = true ↔ (runDecode s).result.cur.fs = .outOfRange := by
  rw [runDecode_status s h, runDecode_cur h]
  show currentAnomaly (prologue s) = true ↔ _
  rcases currentField_cases (prologue s) with ⟨c, hc, he, ha⟩ | ⟨he, ha⟩ | ⟨v, _, _, he, ha⟩ <;> rw [he, ha]
  · rcases hc with rfl | rfl <;> simp
  · simp
  · simp

theorem runDecode_aCell_iff (hp : (runDecode s).cfg.cellPartial = false) :
    (runDecode s).status.aCell = true ↔ (runDecode s).result.cells.fs = .outOfRange := by
  rw [runDecode_frame] at hp
  rw [runDecode_status s h, runDecode_cells h]
  show cellsAnomaly (prologue s) = true ↔ _
  rcases cellsField_cases (prologue s) with ⟨c, hc, he, ha⟩ | ⟨he, ha⟩ | ⟨p, n, _, he, ha⟩
  · rw [he, ha]
    rcases hc with rfl | rfl <;> simp
  · simp [he, ha]
  · simp [he, ha hp]

theorem runDecode_aCal_iff : (runDecode s).status.aCal = true ↔ (runDecode s).result.calst.val.st = 2 := by
  rw [runDecode_status s h, runDecode_calst h]
  exact calAnomaly_iff (prologue s)

theorem runDecode_delta_iff :
    (runDecode s).result.delta.v = true ↔
      (runDecode s).result.cells.v = true ∧ (runDecode s).result.cells.val.ncell ≠ 0 := by
  rw [runDecode_delta s h]
  by_cases hc : (runDecode s).result.cells.v = true ∧ (runDecode s).result.cells.val.ncell ≠ 0
  · rw [deltaField_of_cells hc]
    exact iff_of_true rfl hc
  · rw [deltaField_of_no_cells hc]
    exact iff_of_false Bool.false_ne_true hc

theorem readingInv_runDecode_long : ReadingInv (runDecode s) where
  causeOk := fun f => (runDecode_fieldDecoded s f).cause_ok_iff
  absentZero := Reading.absentReadsZero_of_fieldDecoded (runDecode_fieldDecoded s)
  cellCount := (runDecode_cells_tail h).1
  cellTail := (runDecode_cells_tail h).2
  calStates := by
    rw [runDecode_calst h, calField_eq_map]
    exact FieldReg.settle_map_val (P := fun c : Calibration => c.st ≠ 3) (show (0 : BitVec 2) ≠ 3 by decide)
      calibrationOf_st_ne_three
  curSign := runDecode_cur_nonneg h
  warnSet := by
    rw [runDecode_warn h, warnField_eq_map]
    exact FieldReg.settle_map_val (P := fun w : Warnings => w.wset = w.warn.setWidth 14) rfl fun _ => rfl
  badBytes := by
    rw [runDecode_swver h, versionField_eq_map]
    exact FieldReg.settle_map_val
      (P := fun v : Version => ∀ i : Fin 15, v.bad.getLsbD i.val = true ↔ 128 ≤ (v.bytes[i]).toNat)
      (blank_bad_iff .notDecoded) versionOf_bad_iff
  deltaPresent := runDecode_delta_iff h
  curAnomaly := runDecode_aCur_iff h
  calAnomalous := runDecode_aCal_iff h
  cellAnomaly := runDecode_aCell_iff h
  beforeDecode := by simp [runDecode_status s h]
  afterDecode := fun _ f => (runDecode_fieldDecoded s f).cause_ne_notDecoded
  guardFailed := by simp [runDecode_status s h]

end

/-- The guard failed: every field absent, UNDERSIZED, over the cleared reading (R206). -/
theorem readingInv_runDecode_short {s : State} (h : s.rxlen.toNat ≤ 38) : ReadingInv (runDecode s) := by
  have hd := runDecode_fieldDecoded s
  rw [runDecode_short s h] at hd ⊢
  exact {
    causeOk := fun f => (hd f).cause_ok_iff
    absentZero := Reading.absentReadsZero_of_fieldDecoded hd
    cellCount := Nat.zero_le 85
    cellTail := fun j _ => blank_cell _ j
    calStates := show (0 : BitVec 2) ≠ 3 by decide
    curSign := Int.le_refl 0
    warnSet := rfl
    badBytes := blank_bad_iff .undersized
    deltaPresent := iff_of_false Bool.false_ne_true fun hc => Bool.false_ne_true hc.1
    curAnomaly := iff_of_false Bool.false_ne_true nofun
    calAnomalous := iff_of_false Bool.false_ne_true (show (0 : BitVec 2) ≠ 2 by decide)
    cellAnomaly := fun _ => iff_of_false Bool.false_ne_true nofun
    beforeDecode := nofun
    afterDecode := fun _ f => (hd f).cause_ne_notDecoded
    guardFailed := fun _ _ => rfl }

theorem readingInv_runDecode (s : State) : ReadingInv (runDecode s) := by
  by_cases h : 38 < s.rxlen.toNat
  · exact readingInv_runDecode_long h
  · exact readingInv_runDecode_short (by omega)

/-! ### Commands and steps -/

/-- No command but DECODE touches the reading or the flags that go with it (R39), and a DECODE sets it up afresh. -/
theorem exec_keeps_readingInv {i : Instr} {s t : State} (hi : fieldOf i = none) (h : ReadingInv s)
    (he : exec i s = .next t) : ReadingInv t := by
  rcases exec_command_cases hi he with ⟨e, _, _, _, rfl⟩ | ⟨n, _, _, _, rfl⟩ | ⟨_, rfl⟩ |
    ⟨sel, a, b, _, _, _, rfl⟩ | ⟨sel, a, b, c, _, _, _, _, rfl⟩ | ⟨_, rfl⟩
  · exact h.of_eq rfl rfl rfl rfl rfl rfl rfl
  · exact h.of_eq rfl rfl rfl rfl rfl rfl rfl
  · exact h.of_eq rfl rfl rfl rfl rfl rfl rfl
  · exact h.of_eq rfl rfl rfl rfl rfl rfl rfl
  · exact h.of_eq rfl rfl rfl rfl rfl rfl rfl
  · exact readingInv_runDecode s

/-- A whole command, from its acceptance to the release of the ports, keeps the invariant. -/
theorem command_keeps_inv {i : Instr} {s u : State} {c : HostCommand} {rest : List HostCommand}
    (hi : fieldOf i = none) (h : Inv s) (he : exec i (s.accept c rest) = .next u) : Inv u.release := by
  obtain ⟨hs, hr, -⟩ := inv_iff.1 h
  have hs' : StoreInv (s.accept c rest) := hs.of_eq rfl rfl rfl rfl rfl rfl
  have hr' : ReadingInv (s.accept c rest) := hr.of_eq rfl rfl rfl rfl rfl rfl rfl
  exact inv_iff.2 ⟨(exec_keeps_storeInv hi hs' he).of_eq rfl rfl rfl rfl rfl rfl,
    (exec_keeps_readingInv hi hr' he).of_eq rfl rfl rfl rfl rfl rfl rfl, rfl⟩

/-- Settles O10: by the three cases of a step; the invariant's two halves are kept by every command. -/
theorem everyStepKeepsTheInvariant : Obligations.EveryStepKeepsTheInvariant := by
  intro s t hinv hstep
  rcases step_cases s with ⟨f, rest, hseq, _⟩ | ⟨_, _, hwait⟩ | ⟨c, rest, _, _, hcmd⟩
  · cases hseq.symm.trans hinv.noOps
  · rw [hwait] at hstep
    cases hstep
    exact hinv
  · rw [hcmd] at hstep
    obtain ⟨u, hu, rfl⟩ := endCommand_eq_next hstep
    exact command_keeps_inv (fieldOf_decodeCommand c.word) hinv hu

end Sys2Proof.Machine
end

section
/-! SUPPORT. What every command leaves alone (R39), and that a DECODE looks at the valid bytes only (R45). -/

namespace Sys2Proof.Machine

/-! ### DECODE: what it leaves alone -/

section

variable (s : State)

@[simp] theorem runDecode_cfg : (runDecode s).cfg = s.cfg := by rw [runDecode_frame]
@[simp] theorem runDecode_rxb : (runDecode s).rxb = s.rxb := by rw [runDecode_frame]
@[simp] theorem runDecode_rxlen : (runDecode s).rxlen = s.rxlen := by rw [runDecode_frame]
@[simp] theorem runDecode_txf : (runDecode s).txf = s.txf := by rw [runDecode_frame]
@[simp] theorem runDecode_csr : (runDecode s).csr = s.csr := by rw [runDecode_frame]
@[simp] theorem runDecode_acc : (runDecode s).acc = s.acc := by rw [runDecode_frame]
@[simp] theorem runDecode_cmdIn : (runDecode s).cmdIn = s.cmdIn := by rw [runDecode_frame]
@[simp] theorem runDecode_dataIn : (runDecode s).dataIn = s.dataIn := by rw [runDecode_frame]
@[simp] theorem runDecode_seq : (runDecode s).seq = s.seq := by rw [runDecode_frame]

@[simp] theorem runDecode_status_vok : (runDecode s).status.vok = s.status.vok := by rw [runDecode_frame]

@[simp] theorem runDecode_status_txfValid : (runDecode s).status.txfValid = s.status.txfValid := by rw [runDecode_frame]

end

/-! ### DECODE: what it depends on -/

section

variable {s s' : State} (hcfg : s.cfg = s'.cfg) (hlen : s.rxlen = s'.rxlen)
  (hbytes : ∀ i, i < s.rxlen.toNat → byteAt s i = byteAt s' i)
include hlen hbytes

include hcfg in
/-- Over the guard every tag's field agrees, and the delta follows from the cells (R136, R186). -/
theorem runDecode_result_congr (hlong : 38 < s.rxlen.toNat) : (runDecode s).result = (runDecode s').result := by
  have hlong' : 38 < s'.rxlen.toNat := hlen ▸ hlong
  have htag : ∀ f, f ≠ .delta → SameField f (runDecode s).result (runDecode s').result := fun f hf =>
    (runDecode_field s hlong hf).trans <|
      (runField_congr (s := prologue s) (s' := prologue s') hf hcfg hlen hbytes (SameField.refl f _)).trans
        (runDecode_field s' hlong' hf).symm
  refine Reading.ext_fields fun f => ?_
  by_cases hf : f = .delta
  · subst hf
    have hcells : (runDecode s).result.cells = (runDecode s').result.cells := htag .cells nofun
    show (runDecode s).result.delta = (runDecode s').result.delta
    rw [runDecode_delta s hlong, runDecode_delta s' hlong', deltaField_congr hcells]
  · exact htag f hf

/-- The conditions of the three anomaly bits are those of the valid bytes (R205). -/
theorem anomalies_congr :
    currentAnomaly s = currentAnomaly s' ∧ calAnomaly s = calAnomaly s' ∧ cellsAnomaly s = cellsAnomaly s' := by
  have hread : ∀ q, q < s'.rxlen.toNat → Memory.read s.rxb q = Memory.read s'.rxb q := hlen ▸ hbytes
  exact ⟨currentAnomaly_congr hlen hread, calAnomaly_congr hlen hread, cellsAnomaly_congr hlen hread⟩

end

/-- Settles O43: over the guard by the fields and the anomaly bits one by one, below it both readings are the cleared one. -/
theorem decodeDependsOnTheBufferAlone : Obligations.DecodeDependsOnTheBufferAlone := by
  intro s s' t t' hcfg hlen hbytes ht ht'
  cases ht
  cases ht'
  by_cases hlong : 38 < s.rxlen.toNat
  · obtain ⟨hcur, hcal, hcell⟩ := anomalies_congr hlen hbytes
    rw [runDecode_status s hlong, runDecode_status s' (hlen ▸ hlong)]
    exact ⟨runDecode_result_congr hcfg hlen hbytes hlong, rfl, hcur, hcal, hcell⟩
  · have hshort : s.rxlen.toNat ≤ 38 := by omega
    rw [runDecode_short s hshort, runDecode_short s' (hlen ▸ hshort)]
    exact ⟨rfl, rfl, rfl, rfl, rfl⟩

/-- Settles O49: for each way a command ends, from what its update leaves alone. -/
theorem eachElementHasItsWriters : Obligations.EachElementHasItsWriters := by
  intro i s t hi he
  rcases exec_command_cases hi he with ⟨e, _, _, _, rfl⟩ | ⟨n, rfl, _, _, rfl⟩ | ⟨rfl, rfl⟩ |
    ⟨sel, a, b, hcsum, _, _, rfl⟩ | ⟨sel, a, b, c, hverify, _, _, _, rfl⟩ | ⟨rfl, rfl⟩
  · simp
  · simp
  · simp
  · simp [hcsum]
  · simp [hverify]
  · simp

end Sys2Proof.Machine
end

section
/-! SUPPORT. The temperature's range, one step, the state after reset, and the STATUS word. -/

namespace Sys2Proof.Machine

/-! ### Temperatures -/

/-- The three ranges of R151: below 100 the raw value, at 100 the parameter, above 100 less the excess. -/
theorem tempdec_cases (at100 : TempAt100) (raw : U16) :
    (raw.toNat < 100 ∧ tempdec at100 raw = raw.toNat) ∨
    (raw.toNat = 100 ∧ tempdec at100 raw = tempAt100Value at100) ∨
    (100 < raw.toNat ∧ tempdec at100 raw = 100 - (raw.toNat : Int)) := by
  simp only [tempdec, tempZero]
  rcases Nat.lt_trichotomy raw.toNat 100 with h | h | h
  · exact .inl ⟨h, by rw [if_neg (by omega), if_pos (by omega)]⟩
  · exact .inr (.inl ⟨h, by rw [if_pos h]⟩)
  · exact .inr (.inr ⟨h, by rw [if_neg (by omega), if_neg (by omega)]; omega⟩)

theorem tempdec_bounds (at100 : TempAt100) (raw : U16) :
    -65435 ≤ tempdec at100 raw ∧ tempdec at100 raw ≤ 100 := by
  have hraw := raw.isLt
  rcases tempdec_cases at100 raw with ⟨_, e⟩ | ⟨_, e⟩ | ⟨_, e⟩ <;> rw [e]
  · omega
  · cases at100 <;> decide
  · omega

/-- Settles O30: the bounds lie within the 17-bit signed range. -/
theorem temperatureFitsItsRegister : Obligations.TemperatureFitsItsRegister := by
  intro at100 raw
  obtain ⟨hlow, hhigh⟩ := tempdec_bounds at100 raw
  exact ⟨hlow, hhigh, BitVec.toInt_ofInt_eq_self (by decide) (by omega) (by omega)⟩

/-! ### One step -/

/-- Settles O5: a step at a command is `exec` between the acceptance of the command and the release of the ports. -/
theorem stepRunsTheDecodedCommand : Obligations.StepRunsTheDecodedCommand := by
  intro s c rest i hseq hcmd hdec
  cases hdec
  rw [step_command hseq hcmd]
  exact ⟨fun t ht => congrArg endCommand ht, fun r hr => congrArg endCommand hr⟩

/-- Settles O6, by the sequencer's list. -/
theorem stepRunsTheFieldOperation : Obligations.StepRunsTheFieldOperation := by
  intro s f rest hseq
  rcases step_cases s with ⟨g, rest', hseq', hstep⟩ | ⟨hnil, _⟩ | ⟨_, _, hnil, _⟩
  · cases hseq.symm.trans hseq'
    exact hstep
  · cases hseq.symm.trans hnil
  · cases hseq.symm.trans hnil

/-- Settles O7, by the two lists the next instruction could come from. -/
theorem stepWithoutACommandWaits : Obligations.StepWithoutACommandWaits := by
  intro s hseq hcmd
  rcases step_cases s with ⟨_, _, hcons, _⟩ | ⟨_, _, hwait⟩ | ⟨_, _, _, hcons, _⟩
  · cases hseq.symm.trans hcons
  · exact hwait
  · cases hcmd.symm.trans hcons

/-- Settles O14, by the ways LOAD ends. -/
theorem loadWithTheWrongNumberOfBytesStops : Obligations.LoadWithTheWrongNumberOfBytesStops := by
  intro n s hn hd
  rcases execLoad_cases n s with ⟨hrange, _⟩ | ⟨_, hd', _⟩ | ⟨_, _, hstop⟩
  · omega
  · exact absurd hd' hd
  · exact hstop

/-! ### Reset -/

theorem Config.machine_ok : Config.machine.Ok := by
  have hslack := Config.bufMaxSlack.isLt
  simp only [Config.Ok, Config.machine]
  omega

theorem Reading.blank_valid (c : Cause) (f : FieldId) : (Reading.blank c).valid f = false := by cases f <;> rfl

theorem Reading.blank_cause (c : Cause) (f : FieldId) : (Reading.blank c).cause f = c := by cases f <;> rfl

theorem Reading.blank_absentReadsZero (c : Cause) : AbsentReadsZero (Reading.blank c) := by
  constructor <;> exact fun _ => rfl

theorem storeInv_reset : StoreInv State.reset where
  cfgOk := Config.machine_ok
  memWf := Memory.wf_nil
  memBound := nofun
  lenBound := Nat.zero_le _
  noOps := rfl
  frameBuilt := nofun

theorem readingInv_reset : ReadingInv State.reset where
  causeOk := fun f => by simp [State.reset, Reading.blank_valid, Reading.blank_cause]
  absentZero := Reading.blank_absentReadsZero .notDecoded
  cellCount := Nat.zero_le 85
  cellTail := fun j _ => blank_cell .notDecoded j
  calStates := show (0 : BitVec 2) ≠ 3 by decide
  curSign := Int.le_refl 0
  warnSet := rfl
  badBytes := blank_bad_iff .notDecoded
  deltaPresent := iff_of_false Bool.false_ne_true fun hc => Bool.false_ne_true hc.1
  curAnomaly := iff_of_false Bool.false_ne_true nofun
  calAnomalous := iff_of_false Bool.false_ne_true (show (0 : BitVec 2) ≠ 2 by decide)
  cellAnomaly := fun _ => iff_of_false Bool.false_ne_true nofun
  beforeDecode := fun _ => ⟨rfl, rfl⟩
  afterDecode := nofun
  guardFailed := nofun

/-- Settles O9, by the invariant's two halves. -/
theorem resetMeetsTheInvariant : Obligations.ResetMeetsTheInvariant :=
  inv_iff.2 ⟨storeInv_reset, readingInv_reset, rfl⟩

/-- Settles O11, by the cleared reading that reset leaves. -/
theorem resetLooksLikeNoPollYet : Obligations.ResetLooksLikeNoPollYet :=
  ⟨rfl, rfl, rfl, fun f => ⟨Reading.blank_valid .notDecoded f, congrArg Cause.code (Reading.blank_cause .notDecoded f)⟩,
    Reading.blank_absentReadsZero .notDecoded⟩

/-! ### STATUS -/

theorem Err.code_lt (e : Err) : e.code.toNat < 4 := by cases e <;> decide

/-- STATUS from bit 0 to bit 10, bit 7 reserved (R35). -/
def Status.bits (s : Status) : List Bool :=
  [s.lenOk, s.aCur, s.aCal, s.aCell, s.vok, s.txfValid, s.decDone, false,
    s.err.code.getLsbD 0, s.err.code.getLsbD 1, s.err.code.getLsbD 2]

theorem Status.word_getLsbD (s : Status) (i : Nat) : s.word.getLsbD i = s.bits.getD i false := by
  by_cases hi : i < 16
  · simp only [Status.word, BitVec.getLsbD_append]
    interval_cases i <;> simp [Status.bits]
  · have hlen : s.bits.length ≤ i := by
      simp only [Status.bits, List.length_cons, List.length_nil]
      omega
    rw [BitVec.getLsbD_of_ge _ _ (by omega), List.getD_eq_default _ _ hlen]

theorem Status.word_extractLsb_err (s : Status) : s.word.extractLsb' 8 3 = s.err.code := by
  apply BitVec.eq_of_getLsbD_eq
  intro i hi
  rw [BitVec.getLsbD_extractLsb', Status.word_getLsbD, decide_eq_true hi, Bool.true_and]
  interval_cases i <;> rfl

/-- Settles O52, from the list of STATUS's bits. -/
theorem statusWordLayout : Obligations.StatusWordLayout := by
  refine ⟨⟨rfl, rfl, rfl, rfl⟩, fun s => ?_⟩
  have hbit := s.word_getLsbD
  have hhigh : ∀ i, 11 ≤ i → s.word.getLsbD i = false := fun i hi =>
    (hbit i).trans (List.getD_eq_default _ _ hi)
  exact ⟨hbit 0, hbit 1, hbit 2, hbit 3, hbit 4, hbit 5, hbit 6, hbit 7, s.word_extractLsb_err, hhigh, s.err.code_lt⟩

end Sys2Proof.Machine
end

section
/-! SUPPORT. The buffer's bytes: their order in a u16 (R55), LOAD (R53), that no other instruction looks beyond
the length (R52), and that no other command has more to do when it is repeated (R54). -/

namespace Sys2Proof.Machine

/-! ### Byte order -/

theorem hiByte_toNat (v : U16) : (hiByte v).toNat = v.toNat / 256 := by
  have := v.isLt
  simp only [hiByte, BitVec.extractLsb'_toNat, Nat.shiftRight_eq_div_pow]
  omega

theorem loByte_toNat (v : U16) : (loByte v).toNat = v.toNat % 256 := by simp [loByte]

theorem be16_hiByte_loByte (v : U16) : be16 (hiByte v) (loByte v) = v := by
  apply BitVec.eq_of_toNat_eq
  rw [be16_toNat, hiByte_toNat, loByte_toNat]
  exact Nat.div_add_mod' v.toNat 256

/-- Settles O27: the two bytes are the quotient and the remainder by 256. -/
theorem highByteFirst : Obligations.HighByteFirst := ⟨be16_hiByte_loByte, be16_toNat⟩

/-! ### LOAD -/

section

variable {s : State} (hwf : Memory.wf s.rxb) (n : U16)
include hwf

theorem byteAt_loadBytes_of_lt {i : Nat} (hi : i < s.dataIn.length) : byteAt (s.loadBytes n) i = s.dataIn[i] := by
  rw [byteAt, State.loadBytes_rxb, Memory.read_writeBytes hwf, if_pos (by omega)]
  simp [hi]

theorem byteAt_loadBytes_of_ge {i : Nat} (hi : s.dataIn.length ≤ i) : byteAt (s.loadBytes n) i = byteAt s i := by
  rw [byteAt, State.loadBytes_rxb, Memory.read_writeBytes hwf, if_neg (by omega), byteAt]

end

/-- Settles O13: by the ways LOAD ends, and what a read gives after the bytes are written. -/
theorem loadFillsTheBuffer : Obligations.LoadFillsTheBuffer := by
  intro n s hwf
  rcases execLoad_cases n s with ⟨hrange, he⟩ | ⟨hn, hd, he⟩ | ⟨hn, hd, _⟩
  · exact ⟨fun _ => he, fun hn => by omega⟩
  · refine ⟨fun hrange => by omega, fun _ _ => ⟨_, he, ?_, ?_, rfl⟩⟩
    · exact fun i hi => byteAt_loadBytes_of_lt hwf n hi
    · exact fun i hi => byteAt_loadBytes_of_ge hwf n (by omega)
  · exact ⟨fun hrange => by omega, fun _ hd' => absurd hd' hd⟩

/-! ### Another buffer with the same valid bytes -/

/-- The state with another buffer in it. -/
def State.withRxb (m : Memory) (s : State) : State := { s with rxb := m }

theorem srcRange_congr {s s' : State} {sel : Source} {a b : Nat}
    (h : ∀ j, j < b → srcByte s sel j = srcByte s' sel j) : srcRange s sel a b = srcRange s' sel a b := by
  apply List.map_congr_left
  intro j hj
  rw [List.mem_range'_1] at hj
  exact h j (by omega)

section

variable {m : Memory} {s : State} (hm : ∀ j, j < s.rxlen.toNat → Memory.read m j = Memory.read s.rxb j)
include hm

theorem srcByte_withRxb {sel : Source} {j : Nat} (hj : j < srcLen s sel) :
    srcByte (s.withRxb m) sel j = srcByte s sel j := by
  cases sel with
  | txf => rfl
  | rxb => exact hm j hj

theorem sumInto_withRxb {sel : Source} {a b : U16} (hb : b.toNat ≤ srcLen s sel) :
    (s.withRxb m).sumInto sel a b = (s.sumInto sel a b).withRxb m := by
  have hrange : srcRange (s.withRxb m) sel a.toNat b.toNat = srcRange s sel a.toNat b.toNat :=
    srcRange_congr fun j hj => srcByte_withRxb hm (by omega)
  simp only [State.sumInto, hrange]
  rfl

theorem storedChecksum_withRxb {sel : Source} {c : Nat} (hc : c + 2 ≤ srcLen s sel) :
    storedChecksum (s.withRxb m) sel c = storedChecksum s sel c := by
  rw [storedChecksum, srcByte_withRxb hm (by omega), srcByte_withRxb hm (by omega), storedChecksum]

theorem setVok_withRxb {sel : Source} {c : U16} (hc : c.toNat + 2 ≤ srcLen s sel) :
    (s.withRxb m).setVok sel c = (s.setVok sel c).withRxb m := by
  have hstored := storedChecksum_withRxb hm hc
  simp only [State.setVok, verifyOk, hstored]
  rfl


end

/-! ### CSUM and VERIFY, check by check -/

section

variable {s : State} {sel : Source} {a b c : U16}

theorem runCsum_uninit (hu : srcUninit s sel = true) : runCsum sel a b s = .next (s.setErr .uninit) := by
  simp [runCsum, hu, refuse]

theorem runCsum_performed (hu : srcUninit s sel = false) (hr : rangeOk s sel a b = true) :
    runCsum sel a b s = .next ((s.sumInto sel a b).setErr .none) := by
  simp [runCsum, hu, hr]

theorem runCsum_range (hu : srcUninit s sel = false) (hr : rangeOk s sel a b = false) :
    runCsum sel a b s = .next (s.setErr .range) := by
  simp [runCsum, hu, hr, refuse]

theorem runVerify_uninit (hu : srcUninit s sel = true) : runVerify sel a b c s = .next (s.setErr .uninit) := by
  simp [runVerify, hu, refuse]

theorem runVerify_performed (hu : srcUninit s sel = false) (hr : rangeOk s sel a b = true)
    (hc : storedOk s sel c = true) :
    runVerify sel a b c s = .next (((s.sumInto sel a b).setVok sel c).setErr .none) := by
  simp [runVerify, hu, hr, hc]

theorem runVerify_range (hu : srcUninit s sel = false) (hr : rangeOk s sel a b = true → storedOk s sel c = false) :
    runVerify sel a b c s = .next (s.setErr .range) := by
  have hboth : (rangeOk s sel a b && storedOk s sel c) = false := by simpa using hr
  rw [runVerify, hu, hboth]
  rfl

end

/-! ### No instruction but LOAD looks beyond the length -/

section

variable {m : Memory} {s t : State} (hm : ∀ j, j < s.rxlen.toNat → Memory.read m j = Memory.read s.rxb j)
include hm

theorem runCsum_withRxb {sel : Source} {a b : U16} (h : runCsum sel a b s = .next t) :
    runCsum sel a b (s.withRxb m) = .next (t.withRxb m) := by
  rcases runCsum_cases sel a b s with ⟨hu, e⟩ | ⟨hu, hr, e⟩ | ⟨hu, hr, e⟩ <;> cases e.symm.trans h
  · exact runCsum_uninit (s := s.withRxb m) hu
  · rw [runCsum_performed (s := s.withRxb m) hu hr, sumInto_withRxb hm (rangeOk_iff.1 hr).2]
    rfl
  · exact runCsum_range (s := s.withRxb m) hu hr

theorem runVerify_withRxb {sel : Source} {a b c : U16} (h : runVerify sel a b c s = .next t) :
    runVerify sel a b c (s.withRxb m) = .next (t.withRxb m) := by
  rcases runVerify_cases sel a b c s with ⟨hu, e⟩ | ⟨hu, hr, hc, e⟩ | ⟨hu, hr, e⟩ <;> cases e.symm.trans h
  · exact runVerify_uninit (s := s.withRxb m) hu
  · rw [runVerify_performed (s := s.withRxb m) hu hr hc, sumInto_withRxb hm (rangeOk_iff.1 hr).2,
      setVok_withRxb (s := s.sumInto sel a b) hm (storedOk_iff.1 hc)]
    rfl
  · exact runVerify_range (s := s.withRxb m) hu hr

theorem runField_sp_withRxb (f : FieldId) : (runField f (s.withRxb m)).sp = (runField f s).sp := by
  cases f with
  | delta => rfl
  | _ => exact spAfter_congr hm

theorem runField_result_withRxb (f : FieldId) : (runField f (s.withRxb m)).result = (runField f s).result := by
  refine Reading.ext_fields fun g => ?_
  by_cases hg : g = f
  · subst hg
    by_cases hd : g = .delta
    · subst hd
      rfl
    · exact runField_congr (s := s.withRxb m) hd rfl rfl hm (SameField.refl g _)
  · exact (runField_other (s.withRxb m) hg).trans (runField_other s hg).symm

theorem runField_status_withRxb (f : FieldId) : (runField f (s.withRxb m)).status = (runField f s).status := by
  obtain ⟨hcur, hcal, hcell⟩ := anomalies_congr (s := s.withRxb m) (s' := s) rfl hm
  have hone : ∀ u, (runField f u).status = (runFields [f] u).status := fun _ => rfl
  rw [hone, hone, runFields_status, runFields_status, hcur, hcal, hcell]
  rfl

theorem runField_withRxb (f : FieldId) : runField f (s.withRxb m) = (runField f s).withRxb m := by
  rw [runField_frame, runField_sp_withRxb hm, runField_result_withRxb hm, runField_status_withRxb hm, runField_frame s]
  rfl

theorem runFields_withRxb (fs : List FieldId) : runFields fs (s.withRxb m) = (runFields fs s).withRxb m := by
  induction fs generalizing s with
  | nil => rfl
  | cons f fs ih =>
    rw [runFields_cons, runField_withRxb hm]
    exact ih (by rwa [runField_rxlen, runField_rxb])

theorem runDecode_withRxb : runDecode (s.withRxb m) = (runDecode s).withRxb m := by
  by_cases h : 38 < s.rxlen.toNat
  · rw [runDecode_long (s.withRxb m) h, runDecode_long s h]
    exact congrArg State.finishDecode (runFields_withRxb (s := (prologue s).setLenOk true) hm decodeOrder)
  · rw [runDecode_short (s.withRxb m) (Nat.le_of_not_lt h), runDecode_short s (Nat.le_of_not_lt h)]
    rfl

theorem exec_command_withRxb {i : Instr} (hi : fieldOf i = none) (hload : ∀ n, i ≠ .load n)
    (h : exec i s = .next t) : exec i (s.withRxb m) = .next (t.withRxb m) := by
  cases i with
  | load n => exact absurd rfl (hload n)
  | csum sel a b => exact runCsum_withRxb hm h
  | csumall b => exact runCsum_withRxb hm (sel := .rxb) (a := 0) h
  | verify sel a b c => exact runVerify_withRxb hm h
  | chkframe => exact runVerify_withRxb hm h
  | decode =>
    cases h
    exact congrArg Host.Outcome.next (runDecode_withRxb hm)
  | build => cases h; rfl
  | reserved5 => cases h; rfl
  | reserved6 => cases h; rfl
  | reserved7 => cases h; rfl
  | _ => cases hi

end

theorem eq_opOf {i : Instr} {f : FieldId} (h : fieldOf i = some f) : i = opOf f := by
  cases i <;> cases h <;> rfl

/-- Settles O50: a field operation and a DECODE compare and extract valid bytes only, CSUM and VERIFY check their
indices first, and no other command reads the buffer. -/
theorem bytesBeyondTheLengthAreUnreachable : Obligations.BytesBeyondTheLengthAreUnreachable := by
  intro i s t m hload hm h
  cases hi : fieldOf i with
  | none => exact exec_command_withRxb hm hi hload h
  | some f =>
    rw [eq_opOf hi, exec_opOf] at h ⊢
    cases h
    exact congrArg Host.Outcome.next (runField_withRxb hm f)

/-! ### Repeating a command -/

section

variable {s t : State}

theorem runCsum_repeat {sel : Source} {a b : U16} (h : runCsum sel a b s = .next t) : runCsum sel a b t = .next t := by
  rcases runCsum_cases sel a b s with ⟨hu, e⟩ | ⟨hu, hr, e⟩ | ⟨hu, hr, e⟩ <;> cases e.symm.trans h
  · exact runCsum_uninit (s := s.setErr .uninit) hu
  · exact runCsum_performed (s := (s.sumInto sel a b).setErr .none) hu hr
  · exact runCsum_range (s := s.setErr .range) hu hr

theorem runVerify_repeat {sel : Source} {a b c : U16} (h : runVerify sel a b c s = .next t) :
    runVerify sel a b c t = .next t := by
  rcases runVerify_cases sel a b c s with ⟨hu, e⟩ | ⟨hu, hr, hc, e⟩ | ⟨hu, hr, e⟩ <;> cases e.symm.trans h
  · exact runVerify_uninit (s := s.setErr .uninit) hu
  · exact runVerify_performed (s := ((s.sumInto sel a b).setVok sel c).setErr .none) hu hr hc
  · exact runVerify_range (s := s.setErr .range) hu hr

end

section

variable {s : State} (h : 38 < s.rxlen.toNat)
include h

theorem runDecode_repeat_sp : (runDecode (runDecode s)).sp = (runDecode s).sp := by
  have h' : 38 < (runDecode s).rxlen.toNat := by rwa [runDecode_rxlen]
  rw [runDecode_sp _ h', runDecode_sp s h, runDecode_rxb, runDecode_rxlen]

theorem runDecode_repeat_result : (runDecode (runDecode s)).result = (runDecode s).result :=
  runDecode_result_congr (s' := s) (runDecode_cfg s) (runDecode_rxlen s)
    (fun i _ => by rw [byteAt, runDecode_rxb, byteAt]) (by rwa [runDecode_rxlen])

theorem runDecode_repeat_status : (runDecode (runDecode s)).status = (runDecode s).status := by
  have h' : 38 < (runDecode s).rxlen.toNat := by rwa [runDecode_rxlen]
  obtain ⟨hcur, hcal, hcell⟩ := anomalies_congr (s := runDecode s) (s' := s) (runDecode_rxlen s)
    fun i _ => by rw [byteAt, runDecode_rxb, byteAt]
  rw [runDecode_status _ h', hcur, hcal, hcell, runDecode_status s h]

end

/-- A second DECODE finds the buffer as the first did (R45, R54). -/
theorem runDecode_repeat (s : State) : runDecode (runDecode s) = runDecode s := by
  by_cases h : 38 < s.rxlen.toNat
  · have hframe : runDecode (runDecode s) = { runDecode s with
        sp := (runDecode (runDecode s)).sp
        result := (runDecode (runDecode s)).result
        status := (runDecode (runDecode s)).status } := by
      apply State.frame_of <;> simp
    rw [hframe, runDecode_repeat_sp h, runDecode_repeat_result h, runDecode_repeat_status h]
  · have hshort : s.rxlen.toNat ≤ 38 := Nat.le_of_not_lt h
    rw [runDecode_short s hshort]
    exact runDecode_short _ hshort

/-- Settles O51: a check that fails fails again, and a sum, a frame or a reading comes from state that the command does
not write. -/
theorem repeatingACommandChangesNothing : Obligations.RepeatingACommandChangesNothing := by
  intro i s t hi hload h
  cases i with
  | load n => exact absurd rfl (hload n)
  | csum sel a b => exact runCsum_repeat h
  | csumall b => exact runCsum_repeat (sel := .rxb) (a := 0) h
  | verify sel a b c => exact runVerify_repeat h
  | chkframe => exact runVerify_repeat h
  | decode =>
    cases h
    exact congrArg Host.Outcome.next (runDecode_repeat s)
  | build => cases h; rfl
  | reserved5 => cases h; rfl
  | reserved6 => cases h; rfl
  | reserved7 => cases h; rfl
  | _ => cases hi

end Sys2Proof.Machine
end

section
/-! SUPPORT. The decoder by operation code, and that it undoes the encoder (R71, R72, R80); CHKFRAME and CSUMALL as the
sums they give (R86). -/

namespace Sys2Proof

/-! ### The command a word carries, by its operation code (R72) -/

section

variable {w : BitVec 52}

theorem decodeOp_load (hop : (cwOp w).toNat = 0) : decodeOp w = .load (cwA w) := by simp only [decodeOp, hop]

theorem decodeOp_build (hop : (cwOp w).toNat = 1) : decodeOp w = .build := by simp only [decodeOp, hop]

theorem decodeOp_csum (hop : (cwOp w).toNat = 2) : decodeOp w = .csum (sourceOf (cwSel w)) (cwA w) (cwB w) := by
  simp only [decodeOp, hop]

theorem decodeOp_verify (hop : (cwOp w).toNat = 3) :
    decodeOp w = .verify (sourceOf (cwSel w)) (cwA w) (cwB w) (cwC w) := by
  simp only [decodeOp, hop]

theorem decodeOp_decode (hop : (cwOp w).toNat = 4) : decodeOp w = .decode := by simp only [decodeOp, hop]

theorem decodeOp_reserved5 (hop : (cwOp w).toNat = 5) : decodeOp w = .reserved5 := by simp only [decodeOp, hop]

theorem decodeOp_reserved6 (hop : (cwOp w).toNat = 6) : decodeOp w = .reserved6 := by simp only [decodeOp, hop]

theorem decodeOp_reserved7 (hop : (cwOp w).toNat = 7) : decodeOp w = .reserved7 := by simp only [decodeOp, hop]

end

theorem expand_decodeCommand (w : BitVec 52) : (decodeCommand w).expand = (decodeOp w).expand := expand_named _

/-- Settles O3: a pseudo-command's name is set aside, and each used field is a quotient of the word. -/
theorem operationCodeSelectsTheCommand : Obligations.OperationCodeSelectsTheCommand := by
  intro w
  have hcode := cwOp_toNat w
  rw [expand_decodeCommand]
  refine ⟨fun h => ?load, fun h => congrArg Instr.expand (decodeOp_build (hcode.trans h)), fun h => ?csum,
    fun h => ?verify, fun h => congrArg Instr.expand (decodeOp_decode (hcode.trans h)),
    fun h => congrArg Instr.expand (decodeOp_reserved5 (hcode.trans h)),
    fun h => congrArg Instr.expand (decodeOp_reserved6 (hcode.trans h)),
    fun h => congrArg Instr.expand (decodeOp_reserved7 (hcode.trans h))⟩
  case load =>
    rw [decodeOp_load (hcode.trans h), cwA_eq_ofNat]
    rfl
  case csum =>
    rw [decodeOp_csum (hcode.trans h), sourceOf_cwSel, cwA_eq_ofNat, cwB_eq_ofNat]
    rfl
  case verify =>
    rw [decodeOp_verify (hcode.trans h), sourceOf_cwSel, cwA_eq_ofNat, cwB_eq_ofNat, cwC_eq_ofNat]
    rfl

/-! ### Decoding an encoding -/

/-- The word of a command carries the real command it stands for (R86). -/
theorem decodeOp_of_encode {i : Instr} {w : BitVec 52} (h : encode i = .cw w) : decodeOp w = i.expand := by
  cases i with
  | load n => cases h; simp [decodeOp_load, Instr.expand]
  | build => cases h; simp [decodeOp_build, Instr.expand]
  | csum sel a b => cases h; simp [decodeOp_csum, Instr.expand]
  | verify sel a b c => cases h; simp [decodeOp_verify, Instr.expand]
  | decode => cases h; simp [decodeOp_decode, Instr.expand]
  | reserved5 => cases h; simp [decodeOp_reserved5, Instr.expand]
  | reserved6 => cases h; simp [decodeOp_reserved6, Instr.expand]
  | reserved7 => cases h; simp [decodeOp_reserved7, Instr.expand]
  | chkframe => cases h; simp [decodeOp_verify, Instr.expand, sourceOf]
  | csumall b => cases h; simp [decodeOp_csum, Instr.expand, sourceOf]
  | _ => cases h

/-- A well-formed instruction is the name of the command it stands for (R86, log 12). -/
theorem named_expand {i : Instr} (h : i.wellFormed = true) : i.expand.named = i := by
  cases i with
  | csum sel a b =>
    have hname : isCsumall sel a = false := by simpa [Instr.wellFormed] using h
    simp [Instr.expand, Instr.named, hname]
  | verify sel a b c =>
    have hname : isChkframe sel a b c = false := by simpa [Instr.wellFormed] using h
    simp [Instr.expand, Instr.named, hname]
  | _ => rfl

theorem decodeTag_of_encode {i : Instr} {b : Byte} (h : encode i = .tag b) : decodeTag b = .ok i := by
  cases i <;> cases h <;> rfl

theorem eq_fdelta_of_encode {i : Instr} (h : encode i = .derived) : i = .fdelta := by
  cases i <;> cases h
  rfl

/-- Settles O2, by the kind of encoding: the fields of a command word come back from it, and a tag byte belongs to one
operation. -/
theorem decodeOfEncodeIsTheInstruction : Obligations.DecodeOfEncodeIsTheInstruction := by
  intro i hi
  cases h : encode i with
  | cw w => rw [decode, decodeCommand, decodeOp_of_encode h, named_expand hi]
  | tag b => exact decodeTag_of_encode h
  | derived => rw [decode, eq_fdelta_of_encode h]

/-- Settles O1, by running the decoder on the fourteen encodings. -/
theorem specWordsDecodeToTheirInstructions : Obligations.SpecWordsDecodeToTheirInstructions := by
  unfold Obligations.SpecWordsDecodeToTheirInstructions
  decide

/-! ### Tag bytes (R80, R83) -/

/-- The sixteen tag values of R80. -/
def tagBytes : List Byte :=
  [0x79, 0x80, 0x81, 0x82, 0x83, 0x84, 0x85, 0x86, 0x8A, 0x8B, 0x9D, 0xAD, 0xB7, 0xB8, 0xB9, 0xC0]

theorem exists_encode_eq_tag {b : Byte} (hb : b ∈ tagBytes) : ∃ i, encode i = .tag b := by
  simp only [tagBytes, List.mem_cons, List.not_mem_nil, or_false] at hb
  rcases hb with rfl | rfl | rfl | rfl | rfl | rfl | rfl | rfl | rfl | rfl | rfl | rfl | rfl | rfl | rfl | rfl
  exacts [⟨.f79, rfl⟩, ⟨.f80, rfl⟩, ⟨.f81, rfl⟩, ⟨.f82, rfl⟩, ⟨.f83, rfl⟩, ⟨.f84, rfl⟩, ⟨.f85, rfl⟩, ⟨.f86, rfl⟩,
    ⟨.f8a, rfl⟩, ⟨.f8b, rfl⟩, ⟨.f9d, rfl⟩, ⟨.fad, rfl⟩, ⟨.fb7, rfl⟩, ⟨.fb8, rfl⟩, ⟨.fb9, rfl⟩, ⟨.fc0, rfl⟩]

/-- Each of the decoder's sixteen cases is excluded by one of the inequalities; what is left is its last line. -/
theorem decodeTag_of_notMem {b : Byte} (hb : b ∉ tagBytes) : decodeTag b = .error (.notATag b) := by
  simp only [tagBytes, List.mem_cons, List.not_mem_nil, or_false, BitVec.toNat_eq] at hb
  unfold decodeTag
  split
  case h_17 => rfl
  all_goals simp_all

/-- Settles O4: each tag is the encoding of an operation, and no other byte is among the decoder's cases. -/
theorem onlyTheSixteenTagBytesDecode : Obligations.OnlyTheSixteenTagBytesDecode := by
  intro b
  split
  case isTrue hb =>
    obtain ⟨i, hi⟩ := exists_encode_eq_tag hb
    exact ⟨i, decodeTag_of_encode hi, hi⟩
  case isFalse hb => exact decodeTag_of_notMem hb

end Sys2Proof

namespace Sys2Proof.Machine

/-! ### Pseudo-commands and reserved codes -/

/-- Settles O21: the meaning of a pseudo-command is that of the command it stands for. -/
theorem pseudoCommandsActAsTheirExpansion : Obligations.PseudoCommandsActAsTheirExpansion := by
  intro i s
  cases i <;> rfl

/-- Settles O47: a word with a reserved code stands for the reserved instruction, whatever its other bits. -/
theorem reservedCodesAreRefused : Obligations.ReservedCodesAreRefused := by
  refine ⟨fun s => ⟨rfl, rfl, rfl⟩, fun w s hw => ?_⟩
  obtain ⟨_, _, _, _, _, h5, h6, h7⟩ := operationCodeSelectsTheCommand w
  have hcode : w.toNat % 8 = 5 ∨ w.toNat % 8 = 6 ∨ w.toNat % 8 = 7 := by omega
  rw [pseudoCommandsActAsTheirExpansion]
  rcases hcode with h | h | h
  · rw [h5 h]
    rfl
  · rw [h6 h]
    rfl
  · rw [h7 h]
    rfl

/-! ### The sum of a range -/

section

variable (s : State) (sel : Source)

theorem sumInto_csr_toNat (a b : U16) :
    (s.sumInto sel a b).csr.toNat = rangeTotal s sel a.toNat b.toNat % 65536 := by
  rw [State.sumInto_csr, BitVec.toNat_setWidth, accSum_toNat_mod, sum_srcRange, rangeTotal]
  exact Nat.mod_mod_of_dvd _ (by decide)

theorem storedChecksum_toNat (c : Nat) :
    (storedChecksum s sel c).toNat = (srcByte s sel c).toNat * 256 + (srcByte s sel (c + 1)).toNat :=
  be16_toNat _ _

/-- VERIFY's comparison after the sum, as one of numbers (R107). -/
theorem verifyOk_sumInto_iff (a b : U16) (c : Nat) :
    verifyOk (s.sumInto sel a b) sel c = true ↔
      rangeTotal s sel a.toNat b.toNat % 65536 =
        (srcByte s sel c).toNat * 256 + (srcByte s sel (c + 1)).toNat := by
  have hstored : storedChecksum (s.sumInto sel a b) sel c = storedChecksum s sel c := by cases sel <;> rfl
  rw [verifyOk, beq_iff_eq, hstored, BitVec.toNat_eq, sumInto_csr_toNat, storedChecksum_toNat]

theorem rangeTotal_le (a b : Nat) : rangeTotal s sel a b ≤ 255 * (b - a) := by
  rw [rangeTotal, ← sum_srcRange, ← length_srcRange s sel a b]
  exact sum_toNat_le _

end

theorem srcByte_txf (s : State) (i : Nat) (hi : i < 21) : srcByte s .txf i = s.txf[i] := by
  simp [srcByte, hi]

/-- Settles O19: the checks on the range and the stored bytes hold for the frame, and seventeen bytes sum to less than
65536. -/
theorem chkframeChecksTheFrame : Obligations.ChkframeChecksTheFrame := by
  intro s
  refine ⟨fun hv => runVerify_uninit (by simp [srcUninit, hv]), fun hv => ?_⟩
  have hrun : exec .chkframe s = .next (((s.sumInto .txf 0 17).setVok .txf 19).setErr .none) :=
    runVerify_performed (srcUninit_eq_false.2 (.inr hv)) (rangeOk_iff.2 (by simp)) (storedOk_iff.2 (by simp))
  have hle := rangeTotal_le s .txf 0 17
  have hsmall : rangeTotal s .txf 0 17 % 65536 = rangeTotal s .txf 0 17 := Nat.mod_eq_of_lt (by omega)
  have hvok := verifyOk_sumInto_iff s .txf 0 17 19
  rw [srcByte_txf s 19 (by decide), srcByte_txf s 20 (by decide)] at hvok
  exact ⟨_, hrun, (sumInto_csr_toNat s .txf 0 17).trans hsmall, hsmall ▸ hvok, rfl⟩

theorem rangeTotal_rxb (s : State) (n : Nat) :
    rangeTotal s .rxb 0 n = ∑ i ∈ Finset.range n, (byteAt s i).toNat := by
  rw [rangeTotal, ← Finset.range_eq_Ico]
  rfl

/-- Settles O20: the whole buffer is a range that CSUM accepts. -/
theorem csumallSumsTheWholeBuffer : Obligations.CsumallSumsTheWholeBuffer := by
  intro s
  have hrun : exec (.csumall s.rxlen) s = .next ((s.sumInto .rxb 0 s.rxlen).setErr .none) :=
    runCsum_performed (srcUninit_eq_false.2 (.inl rfl)) (rangeOk_iff.2 ⟨Nat.zero_le _, le_rfl⟩)
  refine ⟨_, hrun, ?_, rfl⟩
  rw [← rangeTotal_rxb]
  exact sumInto_csr_toNat s .rxb 0 s.rxlen

end Sys2Proof.Machine
end

section
/-! SUPPORT. The checksum as a sum of words of any width, the reduction tree as a sum of its chunks, and the ends of CSUM
and VERIFY (R100 to R109). -/

namespace Sys2Proof.Machine

/-! ### Sums of words -/

/-- Adding the bytes as words of width `w` is reducing their integer sum to that width (R105). -/
theorem sum_map_setWidth (w : Nat) (l : List Byte) :
    (l.map (BitVec.setWidth w)).sum = BitVec.ofNat w (l.map BitVec.toNat).sum := by
  rw [← BitVec.natCast_eq_ofNat, Nat.cast_list_sum, List.map_map]
  exact congrArg List.sum (List.map_congr_left fun x _ => (BitVec.ofNat_toNat w x).symm)

/-- An accumulator of `w` bits, started at 0, ends with the integer sum of the bytes reduced to that width. -/
theorem foldl_add_setWidth (w : Nat) (l : List Byte) :
    l.foldl (fun (acc : BitVec w) x => acc + x.setWidth w) 0 = BitVec.ofNat w (l.map BitVec.toNat).sum := by
  rw [← sum_map_setWidth, List.sum_eq_foldl, List.foldl_map]

theorem checksum_eq_sum (l : List Byte) : checksum l = (l.map (BitVec.setWidth 16)).sum :=
  (sum_map_setWidth 16 l).symm

/-- The final truncation of a 32-bit accumulator that holds the sum gives the checksum (R102). -/
theorem setWidth_ofNat_sum (l : List Byte) : (BitVec.ofNat 32 (l.map BitVec.toNat).sum).setWidth 16 = checksum l :=
  BitVec.setWidth_ofNat_of_le (by decide) _

/-- Settles O22: 255 × 65535 is below 2^32. -/
theorem accumulatorCannotOverflow : Obligations.AccumulatorCannotOverflow := by
  intro l hl
  have hle := sum_toNat_le l
  rw [accSum_toNat_mod]
  exact Nat.mod_eq_of_lt (by omega)

/-- Settles O23: an accumulator of either width ends with the integer sum reduced to that width. -/
theorem maskingEarlyGivesTheSameChecksum : Obligations.MaskingEarlyGivesTheSameChecksum := by
  refine ⟨fun x y => Int.emod_add_emod x 65536 y, fun l => ?_⟩
  rw [foldl_add_setWidth 16, accSum, foldl_add_setWidth 32, setWidth_ofNat_sum, checksum]

/-- Settles O26: the checksum is a sum in the group of 16-bit words. -/
theorem checksumIsAdditive : Obligations.ChecksumIsAdditive := by
  refine ⟨fun l m => ?append, fun l m h => ?perm, fun l i h y => ?set, fun l n => ?zeros⟩ <;>
    simp only [checksum_eq_sum]
  case append => rw [List.map_append, List.sum_append]
  case perm => exact (h.map _).sum_eq
  case set =>
    rw [List.map_set, List.sum_set', dif_pos (by simpa using h), List.getElem_map, neg_add_eq_sub]
  case zeros => simp

/-! ### The reduction tree (R103) -/

/-- Each level has half the nodes of the level before it (R103). -/
theorem length_treeLevels {j m : Nat} {l : List Nat} (hl : l.length = 2 ^ (m + j)) :
    (treeLevels j l).length = 2 ^ m := by
  induction j generalizing m with
  | zero => exact hl
  | succ j ih =>
    have hj : (treeLevels j l).length = 2 ^ (m + 1) := ih (by rw [hl, Nat.add_right_comm, Nat.add_assoc])
    rw [treeLevels, length_treeLevel, hj, Nat.pow_succ]
    omega

theorem length_treeLeaves {k : Nat} {chunk : List Byte} (h : chunk.length ≤ 2 ^ k) :
    (treeLeaves k chunk).length = 2 ^ k := by
  simp [treeLeaves, h]

@[simp] theorem sum_treeLeaves (k : Nat) (chunk : List Byte) :
    (treeLeaves k chunk).sum = (chunk.map BitVec.toNat).sum := by
  simp [treeLeaves]

/-- The last level is one node, and every level keeps the sum. -/
theorem passSum_eq {k : Nat} {chunk : List Byte} (h : chunk.length ≤ 2 ^ k) :
    passSum k chunk = (chunk.map BitVec.toNat).sum := by
  have hone : (treeLevels k (treeLeaves k chunk)).length = 1 :=
    length_treeLevels (m := 0) (by rw [length_treeLeaves h, Nat.zero_add])
  obtain ⟨x, hx⟩ := List.length_eq_one_iff.1 hone
  rw [← sum_treeLeaves k, ← sum_treeLevels k, passSum, hx]
  simp

/-- Each pass adds the sum of the bytes it takes, and at least one byte is taken. -/
theorem treePasses_eq (k n : Nat) (acc : BitVec 32) (l : List Byte) (h : l.length ≤ n) :
    treePasses k n acc l = acc + BitVec.ofNat 32 (l.map BitVec.toNat).sum := by
  induction n generalizing acc l with
  | zero => simp [treePasses, List.length_eq_zero_iff.1 (Nat.le_zero.1 h)]
  | succ n ih =>
    cases l with
    | nil => simp [treePasses]
    | cons b bs =>
      have hpos : 0 < 2 ^ k := Nat.two_pow_pos k
      have hdrop : ((b :: bs).drop (2 ^ k)).length ≤ n := by rw [List.length_drop]; omega
      rw [treePasses, ih _ _ hdrop, passSum_eq (List.length_take_le _ _), BitVec.add_assoc, ← BitVec.ofNat_add,
        ← List.sum_append, ← List.map_append, List.take_append_drop]

/-- Settles O24: the passes add up to the integer sum, and the truncation is the last one. -/
theorem reductionTreeComputesTheChecksum : Obligations.ReductionTreeComputesTheChecksum := by
  intro k l _
  rw [treeChecksum, treePasses_eq k l.length 0 l le_rfl, zero_add, setWidth_ofNat_sum]

/-- A level of adders at most doubles the bound of its nodes. -/
theorem le_of_mem_treeLevel {b : Nat} (l : List Nat) (hl : ∀ x ∈ l, x ≤ b) : ∀ x ∈ treeLevel l, x ≤ 2 * b := by
  induction l using treeLevel.induct with
  | case1 x y rest ih =>
    simp only [List.forall_mem_cons] at hl
    obtain ⟨hx, hy, hrest⟩ := hl
    simp only [treeLevel, List.forall_mem_cons]
    exact ⟨by omega, ih hrest⟩
  | case2 x =>
    simp only [treeLevel, List.forall_mem_singleton] at hl ⊢
    omega
  | case3 => simp [treeLevel]

theorem le_of_mem_treeLevels {b : Nat} {l : List Nat} (hl : ∀ x ∈ l, x ≤ b) (j : Nat) :
    ∀ x ∈ treeLevels j l, x ≤ b * 2 ^ j := by
  induction j with
  | zero => simpa [treeLevels] using hl
  | succ j ih =>
    have hdouble : 2 * (b * 2 ^ j) = b * 2 ^ (j + 1) := by ring
    exact hdouble ▸ le_of_mem_treeLevel _ ih

theorem le_of_mem_treeLeaves (k : Nat) (chunk : List Byte) : ∀ x ∈ treeLeaves k chunk, x ≤ 255 := by
  intro x hx
  rcases List.mem_append.1 hx with hbyte | hzero
  · obtain ⟨y, -, rfl⟩ := List.mem_map.1 hbyte
    omega
  · rw [List.eq_of_mem_replicate hzero]
    omega

/-- Settles O25: a leaf is at most 255, and a level of adders at most doubles its nodes. -/
theorem treeNodesFitTheirLevelsWidth : Obligations.TreeNodesFitTheirLevelsWidth := by
  intro k j chunk x hx
  have hle : x ≤ 255 * 2 ^ j := le_of_mem_treeLevels (le_of_mem_treeLeaves k chunk) j x hx
  have hpos : 0 < 2 ^ j := Nat.two_pow_pos j
  have hwidth : 2 ^ (8 + j) = 256 * 2 ^ j := Nat.pow_add 2 8 j
  exact ⟨hle, by omega⟩

/-! ### CSUM and VERIFY -/

theorem srcUninit_eq_true {s : State} {sel : Source} :
    srcUninit s sel = true ↔ sel = .txf ∧ s.status.txfValid = false := by
  simp [srcUninit]

/-- Settles O17: by CSUM's checks, and the number that the sum leaves in CSR. -/
theorem csumSumsTheRange : Obligations.CsumSumsTheRange := by
  intro sel a b s
  refine ⟨fun htxf hv => ?uninit, fun hready hbad => ?range, fun hready hab hb => ?performed⟩
  case uninit => exact runCsum_uninit (srcUninit_eq_true.2 ⟨htxf, hv⟩)
  case range =>
    exact runCsum_range (srcUninit_eq_false.2 hready) (Bool.eq_false_iff.2 (mt rangeOk_iff.1 hbad))
  case performed =>
    have hrun : exec (.csum sel a b) s = .next ((s.sumInto sel a b).setErr .none) :=
      runCsum_performed (srcUninit_eq_false.2 hready) (rangeOk_iff.2 ⟨hab, hb⟩)
    exact ⟨_, hrun, sumInto_csr_toNat s sel a b, rfl⟩

/-- Settles O18: by VERIFY's checks, and its comparison as one of numbers. -/
theorem verifyComparesWithTheStoredBytes : Obligations.VerifyComparesWithTheStoredBytes := by
  intro sel a b c s
  refine ⟨fun htxf hv => ?uninit, fun hready hbad => ?range, fun hready hab hb hc => ?performed⟩
  case uninit => exact runVerify_uninit (srcUninit_eq_true.2 ⟨htxf, hv⟩)
  case range =>
    refine runVerify_range (srcUninit_eq_false.2 hready) fun hr => Bool.eq_false_iff.2 fun hstored => hbad ?_
    obtain ⟨hab, hb⟩ := rangeOk_iff.1 hr
    exact ⟨hab, hb, storedOk_iff.1 hstored⟩
  case performed =>
    have hrun : exec (.verify sel a b c) s = .next (((s.sumInto sel a b).setVok sel c).setErr .none) :=
      runVerify_performed (srcUninit_eq_false.2 hready) (rangeOk_iff.2 ⟨hab, hb⟩) (storedOk_iff.2 hc)
    exact ⟨_, hrun, sumInto_csr_toNat s sel a b, verifyOk_sumInto_iff s sel a b c.toNat, rfl⟩

end Sys2Proof.Machine
end

section
/-! SUPPORT. The frame builder: the frame that BUILD leaves, and that a frame of these bytes passes its own checksum (R121 to
R123). -/

namespace Sys2Proof.Machine

theorem toList_frameBytes : frameBytes.toList = requestFrame := by
  rw [frameBytes_eq]
  rfl

/-- The checksum that BUILD leaves in CSR is that of R122. -/
theorem State.build_csr_eq (s : State) : s.build.csr = 0x0129 := by
  rw [State.build_csr, frameAcc_eq]
  rfl

/-- Settles O15: BUILD has no check, and its frame and its sum do not depend on the state. -/
theorem buildWritesTheRequestFrame : Obligations.BuildWritesTheRequestFrame := by
  intro s
  refine ⟨s.build.setErr .none, rfl, toList_frameBytes, ?_⟩
  rw [← State.build_csr_eq s]
  rfl

section

variable {s : State} (hframe : s.txf.toList = requestFrame)

include hframe

theorem srcByte_txf_of_requestFrame (i : Nat) : srcByte s .txf i = requestFrame.getD i 0 := by
  rw [srcByte, hframe]

/-- The sum over offsets 0 to 16 of the request frame (R122). -/
theorem rangeTotal_of_requestFrame : rangeTotal s .txf 0 17 = 0x0129 := by
  simp only [rangeTotal, srcByte_txf_of_requestFrame hframe]
  decide

/-- The number in the frame's checksum bytes, the high one first (R122). -/
theorem storedNumber_of_requestFrame : s.txf[19].toNat * 256 + s.txf[20].toNat = 0x0129 := by
  rw [← srcByte_txf s 19 (by decide), ← srcByte_txf s 20 (by decide), srcByte_txf_of_requestFrame hframe,
    srcByte_txf_of_requestFrame hframe]
  decide

/-- Any state that holds the request frame as a valid one passes CHKFRAME (R123). -/
theorem exec_chkframe_of_requestFrame (hv : s.status.txfValid = true) :
    ∃ u, exec .chkframe s = .next u ∧ u.status.vok = true ∧ u.status.err = .none ∧ u.csr = 0x0129 := by
  obtain ⟨u, hrun, hcsr, hvok, hu⟩ := (chkframeChecksTheFrame s).2 hv
  rw [rangeTotal_of_requestFrame hframe] at hcsr hvok
  have herr : u.status.err = .none := by rw [hu]
  exact ⟨u, hrun, hvok.2 (storedNumber_of_requestFrame hframe).symm, herr, BitVec.eq_of_toNat_eq hcsr⟩

end

/-- Settles O16: BUILD leaves the request frame as a valid one, and CHKFRAME stands for the VERIFY. -/
theorem builtFrameVerifies : Obligations.BuiltFrameVerifies := by
  intro s t h
  obtain ⟨t', hbuild, hframe, ht'⟩ := buildWritesTheRequestFrame s
  obtain rfl : t' = t := Host.Outcome.next.inj (hbuild.symm.trans h)
  have hv : t'.status.txfValid = true := by rw [ht']
  obtain ⟨u, hchk, hdone⟩ := exec_chkframe_of_requestFrame hframe hv
  have hverify : exec (.verify .txf 0 17 19) t' = .next u :=
    (pseudoCommandsActAsTheirExpansion .chkframe t').symm.trans hchk
  exact ⟨u, hverify, hchk, hdone⟩

end Sys2Proof.Machine
end

section
/-! SUPPORT. The field operations by the rules of Safety.lean: each leaves in its field what the field's rule says of the
buffer (R150 to R167, R181 to R186), and sets its anomaly bit exactly under the rule's condition (R205). -/

namespace Sys2Proof.Machine

/-! ### The first occurrence -/

theorem find_eq_some_iff {s : State} {t : Byte} {p : Nat} :
    find s.rxb s.rxlen.toNat t = some p ↔ FirstAt s t p := by
  rw [find, findFrom_eq_some]
  simp only [FirstAt, byteAt, Nat.zero_le, true_and, Nat.zero_add, true_implies]

theorem find_eq_none_iff {s : State} {t : Byte} : find s.rxb s.rxlen.toNat t = none ↔ NoTag s t := by
  rw [find, findFrom_eq_none]
  simp only [NoTag, byteAt, Nat.zero_le, Nat.zero_add, true_implies]

/-- Settles O28: what the search's loop finds, from index 0 on. -/
theorem findGivesTheFirstOccurrence : Obligations.FindGivesTheFirstOccurrence :=
  fun _ _ => ⟨fun _ => find_eq_some_iff, find_eq_none_iff⟩

/-- A condition on the first occurrence is one on the place where it stands. -/
theorem FirstAt.exists_iff {s : State} {t : Byte} {p : Nat} (hp : FirstAt s t p) {P : Nat → Prop} :
    (∃ q, FirstAt s t q ∧ P q) ↔ P p :=
  ⟨fun ⟨_, hq, h⟩ => hp.unique hq ▸ h, fun h => ⟨p, hp, h⟩⟩

theorem NoTag.not_exists {s : State} {t : Byte} (hn : NoTag s t) {P : Nat → Prop} : ¬ ∃ q, FirstAt s t q ∧ P q :=
  fun ⟨_, hq, _⟩ => hq.not_noTag hn

/-! ### The extraction protocol -/

section

variable {α : Type} {s : State} {t : Byte} {k : Nat} {old new : FieldReg α} {good : Nat → Prop}

theorem NoTag.tagField (hn : NoTag s t) (h : new = ⟨false, .tagNotFound, old.val⟩) : TagField s t k old new good :=
  ⟨fun _ => h, fun _ hp => absurd hn hp.not_noTag, fun _ hp => absurd hn hp.not_noTag⟩

theorem FirstAt.tagField {p : Nat} (hp : FirstAt s t p)
    (hshort : s.rxlen.toNat ≤ p + k → new = ⟨false, .truncated, old.val⟩)
    (hgood : p + k < s.rxlen.toNat → good p) : TagField s t k old new good :=
  ⟨fun hn => absurd hn hp.not_noTag, fun _ hq => hp.unique hq ▸ hshort, fun _ hq => hp.unique hq ▸ hgood⟩

variable (s t)

/-- Every answer of `get1`: the two soft failures, or the raw byte of the first occurrence (R133, R150). -/
theorem get1_cases :
    (NoTag s t ∧ get1 s.rxb s.rxlen.toNat t = .error .tagNotFound) ∨
    (∃ p, FirstAt s t p ∧ s.rxlen.toNat ≤ p + 1 ∧ get1 s.rxb s.rxlen.toNat t = .error .truncated) ∨
    (∃ p raw, FirstAt s t p ∧ p + 1 < s.rxlen.toNat ∧ raw.toNat = rawByte s p ∧
      get1 s.rxb s.rxlen.toNat t = .ok raw) := by
  rcases extract_cases s.rxb s.rxlen.toNat t 1 with ⟨hf, he⟩ | ⟨p, hf, hk, he⟩ | ⟨p, hf, hk, he⟩
  · exact .inl ⟨noTag_of_find hf, get1_error he⟩
  · exact .inr (.inl ⟨p, firstAt_of_find hf, hk, get1_error he⟩)
  · exact .inr (.inr ⟨p, _, firstAt_of_find hf, hk, rfl, get1_ok he⟩)

/-- Every answer of `get2`: the two soft failures, or the raw pair of the first occurrence (R133, R150). -/
theorem get2_cases :
    (NoTag s t ∧ get2 s.rxb s.rxlen.toNat t = .error .tagNotFound) ∨
    (∃ p, FirstAt s t p ∧ s.rxlen.toNat ≤ p + 2 ∧ get2 s.rxb s.rxlen.toNat t = .error .truncated) ∨
    (∃ p raw, FirstAt s t p ∧ p + 2 < s.rxlen.toNat ∧ raw.toNat = rawPair s p ∧
      get2 s.rxb s.rxlen.toNat t = .ok raw) := by
  rcases extract_cases s.rxb s.rxlen.toNat t 2 with ⟨hf, he⟩ | ⟨p, hf, hk, he⟩ | ⟨p, hf, hk, he⟩
  · exact .inl ⟨noTag_of_find hf, get2_error he⟩
  · exact .inr (.inl ⟨p, firstAt_of_find hf, hk, get2_error he⟩)
  · exact .inr (.inr ⟨p, _, firstAt_of_find hf, hk, be16_toNat _ _, get2_ok he⟩)

variable {s t} {r : Except Cause α}

/-- A field settled from an outcome that passes on `get1`'s failures obeys the extraction protocol. -/
theorem tagField_of_get1 (hfail : ∀ c, get1 s.rxb s.rxlen.toNat t = .error c → r = .error c)
    (hgood : ∀ p raw, raw.toNat = rawByte s p → get1 s.rxb s.rxlen.toNat t = .ok raw → good p) :
    TagField s t 1 old (old.settle r) good := by
  rcases get1_cases s t with ⟨hn, he⟩ | ⟨p, hp, hk, he⟩ | ⟨p, raw, hp, hk, hraw, he⟩
  · exact hn.tagField (by rw [hfail _ he, FieldReg.settle_error])
  · exact hp.tagField (fun _ => by rw [hfail _ he, FieldReg.settle_error]) fun h => by omega
  · exact hp.tagField (fun h => by omega) fun _ => hgood p raw hraw he

/-- A field settled from an outcome that passes on `get2`'s failures obeys the extraction protocol. -/
theorem tagField_of_get2 (hfail : ∀ c, get2 s.rxb s.rxlen.toNat t = .error c → r = .error c)
    (hgood : ∀ p raw, raw.toNat = rawPair s p → get2 s.rxb s.rxlen.toNat t = .ok raw → good p) :
    TagField s t 2 old (old.settle r) good := by
  rcases get2_cases s t with ⟨hn, he⟩ | ⟨p, hp, hk, he⟩ | ⟨p, raw, hp, hk, hraw, he⟩
  · exact hn.tagField (by rw [hfail _ he, FieldReg.settle_error])
  · exact hp.tagField (fun _ => by rw [hfail _ he, FieldReg.settle_error]) fun h => by omega
  · exact hp.tagField (fun h => by omega) fun _ => hgood p raw hraw he

end

/-! ### Fields with one or two payload bytes -/

section

variable (s : State)

theorem byteField_settle (t : Byte) (old : FieldReg Byte) :
    ByteField s t old (old.settle (get1 s.rxb s.rxlen.toNat t)) :=
  tagField_of_get1 (fun _ => id) fun p raw hraw he => by
    rw [he]
    exact ⟨rfl, rfl, hraw⟩

theorem pairField_settle (t : Byte) (old : FieldReg U16) :
    PairField s t old (old.settle (get2 s.rxb s.rxlen.toNat t)) :=
  tagField_of_get2 (fun _ => id) fun p raw hraw he => by
    rw [he]
    exact ⟨rfl, rfl, hraw⟩

/-- The decoder of R151 gives the degrees of the rule. -/
theorem tempdec_eq_degrees (c : Config) (raw : U16) : tempdec c.tempAt100 raw = degrees c raw.toNat := by
  rcases tempdec_cases c.tempAt100 raw with ⟨h, e⟩ | ⟨h, e⟩ | ⟨h, e⟩ <;> rw [e, degrees]
  · rw [if_pos h]
  · rw [if_neg (by omega), if_pos h]
    cases c.tempAt100 <;> rfl
  · rw [if_neg (by omega), if_neg (by omega)]

theorem tempField_settle (t : Byte) (old : FieldReg (BitVec 17)) : TempField s t old (old.settle (tempField s t)) := by
  rw [tempField_eq_map]
  refine tagField_of_get2 (fun c he => by rw [he]; rfl) fun p raw hraw he => ?_
  obtain ⟨-, -, hreg⟩ := temperatureFitsItsRegister s.cfg.tempAt100 raw
  rw [he, ← hraw, ← tempdec_eq_degrees]
  exact ⟨rfl, rfl, hreg⟩

theorem warningField_settle (old : FieldReg Warnings) : WarningField s old (old.settle (warnField s)) := by
  rw [warnField_eq_map]
  refine tagField_of_get2 (fun c he => by rw [he]; rfl) fun p raw hraw he => ?_
  rw [he]
  refine ⟨rfl, rfl, hraw, fun i hi => ?_⟩
  show (raw.setWidth 14).getLsbD i = _
  rw [BitVec.getLsbD_setWidth, decide_eq_true hi, Bool.true_and, BitVec.getLsbD, hraw]

theorem balanceOf_eq (raw : Byte) : balanceOf raw = if raw.toNat = 1 then 1 else 0 :=
  if_congr BitVec.toNat_inj.symm rfl rfl

theorem balanceField_settle (old : FieldReg (BitVec 1)) : BalanceField s old (old.settle (balField s)) := by
  rw [balField_eq_map]
  refine tagField_of_get1 (fun c he => by rw [he]; rfl) fun p raw hraw he => ?_
  rw [he, ← hraw]
  exact ⟨rfl, rfl, fun h => (balanceOf_eq raw).trans (if_pos h), fun h => (balanceOf_eq raw).trans (if_neg h)⟩

theorem calibrationOf_st (raw : Byte) :
    (calibrationOf raw).st = if raw.toNat = 1 then 1 else if raw.toNat = 0 then 0 else 2 :=
  if_congr BitVec.toNat_inj.symm rfl (if_congr BitVec.toNat_inj.symm rfl rfl)

theorem calibrationField_settle (old : FieldReg Calibration) :
    CalibrationField s old (old.settle (calField s)) := by
  rw [calField_eq_map]
  refine tagField_of_get1 (fun c he => by rw [he]; rfl) fun p raw hraw he => ?_
  have hst := calibrationOf_st raw
  rw [he, ← hraw]
  refine ⟨rfl, rfl, rfl, fun h => ?_, fun h => ?_, fun h => ?_⟩
  · exact hst.trans (if_pos h)
  · exact hst.trans ((if_neg (by omega)).trans (if_pos h))
  · exact hst.trans ((if_neg (by omega)).trans (if_neg (by omega)))

/-- The condition of `A_CAL` (R165, R205). -/
theorem calAnomaly_iff_unknownCalEntry : calAnomaly s = true ↔ UnknownCalEntry s := by
  rcases get1_cases s 0xB8 with ⟨hn, he⟩ | ⟨p, hp, hk, he⟩ | ⟨p, raw, hp, hk, hraw, he⟩ <;>
    simp only [calAnomaly, UnknownCalEntry, he]
  · exact iff_of_false Bool.false_ne_true hn.not_exists
  · rw [hp.exists_iff]
    exact iff_of_false Bool.false_ne_true fun h => by omega
  · rw [hp.exists_iff, ← hraw]
    simp only [calUnknown, Bool.and_eq_true, bne_iff_ne]
    bv_omega

/-- The three ranges of R155. -/
theorem curdec_cases (raw : U16) :
    (raw.toNat ≤ 10000 ∧ curdec raw = some (raw.toNat : Int)) ∨
    (32768 ≤ raw.toNat ∧ curdec raw = some ((raw.toNat : Int) - 32768)) ∨
    (10000 < raw.toNat ∧ raw.toNat < 32768 ∧ curdec raw = none) := by
  simp only [curdec, curLowMax, curHighMin]
  by_cases hlow : raw.toNat ≤ 10000
  · exact .inl ⟨hlow, by rw [if_pos hlow]; congr 1; omega⟩
  · by_cases hhigh : 32768 ≤ raw.toNat
    · exact .inr (.inl ⟨hhigh, by rw [if_neg hlow, if_pos hhigh]; rfl⟩)
    · exact .inr (.inr ⟨by omega, by omega, by rw [if_neg hlow, if_neg hhigh]⟩)

theorem currentField_settle (old : FieldReg U16) : CurrentField s old (old.settle (currentField s)) := by
  refine tagField_of_get2 (fun c he => by rw [currentField, he]) fun p raw hraw he => ?_
  have hlt := raw.isLt
  rw [currentField, he, ← hraw]
  rcases curdec_cases raw with ⟨h, e⟩ | ⟨h, e⟩ | ⟨h, h', e⟩ <;> simp only [e]
  · exact ⟨fun _ => ⟨rfl, rfl, BitVec.toInt_ofInt_eq_self (by decide) (by omega) (by omega)⟩,
      fun _ => by omega, fun _ => by omega⟩
  · exact ⟨fun _ => by omega,
      fun _ => ⟨rfl, rfl, BitVec.toInt_ofInt_eq_self (by decide) (by omega) (by omega)⟩, fun _ => by omega⟩
  · exact ⟨fun _ => by omega, fun _ => by omega, fun _ _ => rfl⟩

/-- The condition of `A_CUR` (R157, R205). -/
theorem currentAnomaly_iff_deadZoneEntry : currentAnomaly s = true ↔ DeadZoneEntry s := by
  rcases get2_cases s 0x84 with ⟨hn, he⟩ | ⟨p, hp, hk, he⟩ | ⟨p, raw, hp, hk, hraw, he⟩ <;>
    simp only [currentAnomaly, DeadZoneEntry, he]
  · exact iff_of_false Bool.false_ne_true hn.not_exists
  · rw [hp.exists_iff]
    exact iff_of_false Bool.false_ne_true fun h => by omega
  · rw [hp.exists_iff, ← hraw]
    simp only [inDeadZone, curLowMax, curHighMin, Bool.and_eq_true, decide_eq_true_eq]
    omega

/-! ### Fields with longer payloads -/

theorem versionField_settle (old : FieldReg Version) : VersionField s old (old.settle (versionField s)) := by
  rw [versionField_eq_map]
  refine tagField_of_extract (fun he => by rw [he]; rfl) (fun he => by rw [he]; rfl) fun p _ _ he => ?_
  rw [he]
  refine ⟨rfl, rfl, fun i => ?_⟩
  have hbyte : (versionOf (Memory.readBytes s.rxb (p + 1) verLen)).bytes[i] = byteAt s (p + 1 + i.val) := by
    simp only [versionOf, Fin.getElem_fin, Vector.getElem_ofFn, Memory.getD_readBytes _ _ _ _ i.isLt, byteAt]
  exact ⟨hbyte, hbyte ▸ versionOf_bad_iff _ i⟩

/-- Up to 85 groups go into the cell registers as R181 and R182 have it. -/
theorem groupsStored_storeCells (p : Nat) {n : Nat} (hn : n ≤ 85) (old : CellBlock) :
    GroupsStored s p n old (storeCells s.rxb p n old) := by
  have hcell (j : Fin 85) : (storeCells s.rxb p n old).cell[j] =
      if j.val < n then cellGroup s.rxb p j.val else old.cell[j] := by
    simp only [storeCells, Fin.getElem_fin, Vector.getElem_ofFn]
  refine ⟨?_, fun j => ⟨fun hj => ?_, fun hj => ?_⟩⟩
  · simp only [storeCells, BitVec.toNat_ofNat]
    omega
  · rw [hcell, if_pos hj]
    exact ⟨rfl, be16_toNat _ _⟩
  · rw [hcell, if_neg (by omega)]

/-- The cell field and its anomaly bit over the first 0x79: a block that runs out of the buffer, or a complete one (R181,
R183, R184, R205). -/
theorem cellsField_of_firstAt {p : Nat} (hp : FirstAt s 0x79 p) :
    (s.rxlen.toNat ≤ p + 1 + rawByte s p → cellsField s = .error .truncated ∧ cellsAnomaly s = false) ∧
    (p + 1 + rawByte s p < s.rxlen.toNat → cellsAnomaly s = badCellLength (rawByte s p) ∧
      cellsField s = if badCellLength (rawByte s p) && !s.cfg.cellPartial then .error .outOfRange
        else .ok (storeCells s.rxb p (rawByte s p / 3) s.result.cells.val)) := by
  have hf := find_eq_some_iff.2 hp
  simp only [cellsField, cellsAnomaly, hf, rawByte, byteAt]
  refine ⟨fun hle => ?_, fun hlt => ?_⟩
  · simp only [ge_iff_le, hle, if_true, ite_self, and_self]
  · rw [if_neg (by omega), if_neg (by omega), if_neg (by omega), if_neg (by omega)]
    exact ⟨rfl, rfl⟩

theorem badCellLength_iff {l : Nat} : badCellLength l = true ↔ l % 3 ≠ 0 := bne_iff_ne

theorem cellsField_settle : CellsField s s.result.cells (s.result.cells.settle (cellsField s)) := by
  cases hf : find s.rxb s.rxlen.toNat 0x79 with
  | none => exact (noTag_of_find hf).tagField (by rw [cellsField, hf]; rfl)
  | some p =>
    have hp := firstAt_of_find hf
    obtain ⟨hshort, hlong⟩ := cellsField_of_firstAt s hp
    refine hp.tagField (fun h => ?_) fun _ => ⟨fun h => ?_, fun h hbad hpart => ?_, fun h hgood => ?_⟩
    · rw [(hshort (by omega)).1, FieldReg.settle_error]
    · rw [(hshort h).1, FieldReg.settle_error]
    · rw [(hlong h).2, badCellLength_iff.2 hbad, hpart]
      rfl
    · have hkeep : (badCellLength (rawByte s p) && !s.cfg.cellPartial) = false := by
        rcases hgood with hl | hpart
        · simp [badCellLength, hl]
        · simp [hpart]
      have hcount : rawByte s p / 3 ≤ 85 := by
        have := (byteAt s (p + 1)).isLt
        rw [rawByte]
        omega
      rw [(hlong h).2, hkeep]
      exact ⟨rfl, rfl, groupsStored_storeCells s p hcount _⟩

/-- The condition of `A_CELL` (R183, R205). -/
theorem cellsAnomaly_iff_badLengthBlock : cellsAnomaly s = true ↔ BadLengthBlock s := by
  cases hf : find s.rxb s.rxlen.toNat 0x79 with
  | none =>
    rw [cellsAnomaly, hf]
    exact iff_of_false Bool.false_ne_true (noTag_of_find hf).not_exists
  | some p =>
    have hp := firstAt_of_find hf
    obtain ⟨hshort, hlong⟩ := cellsField_of_firstAt s hp
    rw [BadLengthBlock, hp.exists_iff]
    by_cases h : p + 1 + rawByte s p < s.rxlen.toNat
    · rw [(hlong h).1, badCellLength_iff]
      exact (and_iff_right h).symm
    · rw [(hshort (by omega)).2]
      exact iff_of_false Bool.false_ne_true fun hc => h hc.1

end

/-! ### The delta voltage -/

/-- The spread of u16 values is the greatest of them less the least (R186). -/
theorem spread_eq_max_sub_min {l : List Nat} (hl : l ≠ []) (hlt : ∀ x ∈ l, x < 65536) :
    spread l = l.max hl - l.min hl := by
  have hmin := hlt _ (List.min_mem hl)
  rw [spread, List.foldl_max_eq_max hl, List.foldl_min_eq_min hl]
  omega

theorem mem_decodedMv {r : Reading} {x : Nat} :
    x ∈ decodedMv r ↔ ∃ j : Fin 85, j.val < r.cells.val.ncell.toNat ∧ r.cells.val.cell[j].mv.toNat = x := by
  simp only [decodedMv, List.mem_map, List.mem_take_iff_getElem, Vector.length_toList, Vector.getElem_toList,
    lt_inf_iff, Fin.getElem_fin]
  constructor
  · rintro ⟨_, ⟨j, ⟨hj, hlt⟩, rfl⟩, rfl⟩
    exact ⟨⟨j, hlt⟩, hj, rfl⟩
  · rintro ⟨j, hj, rfl⟩
    exact ⟨_, ⟨j.val, ⟨hj, j.isLt⟩, rfl⟩, rfl⟩

theorem deltaField_settle (r : Reading) (old : FieldReg U16) :
    DeltaField r.cells old (old.settle (deltaField r)) := by
  refine ⟨fun hv hpos hle => ?_, fun hnone => ?_⟩
  · have hlt : ∀ x ∈ decodedMv r, x < 65536 := by
      intro x hx
      obtain ⟨j, -, rfl⟩ := mem_decodedMv.1 hx
      exact BitVec.isLt _
    have hne : decodedMv r ≠ [] :=
      List.ne_nil_of_mem (mem_decodedMv.2 ⟨0, hpos, rfl⟩)
    have hcells : r.cells.v = true ∧ r.cells.val.ncell ≠ 0 := ⟨hv, fun h => by simp [h] at hpos⟩
    obtain ⟨hi, hhi, ehi⟩ := mem_decodedMv.1 (List.max_mem hne)
    obtain ⟨lo, hlo, elo⟩ := mem_decodedMv.1 (List.min_mem hne)
    have hmax := hlt _ (List.max_mem hne)
    rw [deltaField_of_cells hcells, spread_eq_max_sub_min hne hlt]
    refine ⟨rfl, rfl, hi, lo, hhi, hlo, fun j hj => ?_, ?_⟩
    · have hj := mem_decodedMv.2 ⟨j, hj, rfl⟩
      rw [ehi, elo]
      exact ⟨List.le_max_of_mem hj, List.min_le_of_mem hj⟩
    · rw [ehi, elo, FieldReg.settle_ok, BitVec.toNat_ofNat]
      omega
  · rw [deltaField_of_no_cells (by rcases hnone with h | h <;> simp [h]), FieldReg.settle_error]

end Sys2Proof.Machine
end

section
/-! SUPPORT. DECODE as the sequence of its field operations: what it leaves in every field (R131, R135, R137), that the order
of the tag operations does not matter (R136), and that steps of the machine run the sequence (R38). -/

namespace Sys2Proof.Machine

/-! ### What a DECODE leaves -/

/-- Over the guard every field is what its rule says of the buffer, over the cleared reading of the prologue. -/
theorem decodesTo_runDecode {s : State} (h : 38 < s.rxlen.toNat) : DecodesTo s (runDecode s).result :=
  have htag (f : FieldId) (hf : f ≠ .delta) := runDecode_field s h hf
  { cells := (congrArg (CellsField s _) (htag .cells nofun)).mpr (cellsField_settle (prologue s))
    ttube := (congrArg (TempField s 0x80 _) (htag .ttube nofun)).mpr (tempField_settle (prologue s) 0x80 _)
    tbox := (congrArg (TempField s 0x81 _) (htag .tbox nofun)).mpr (tempField_settle (prologue s) 0x81 _)
    tcell := (congrArg (TempField s 0x82 _) (htag .tcell nofun)).mpr (tempField_settle (prologue s) 0x82 _)
    volt := (congrArg (PairField s 0x83 _) (htag .volt nofun)).mpr (pairField_settle (prologue s) 0x83 _)
    cur := (congrArg (CurrentField s _) (htag .cur nofun)).mpr (currentField_settle (prologue s) _)
    soc := (congrArg (ByteField s 0x85 _) (htag .soc nofun)).mpr (byteField_settle (prologue s) 0x85 _)
    ntemp := (congrArg (ByteField s 0x86 _) (htag .ntemp nofun)).mpr (byteField_settle (prologue s) 0x86 _)
    nstr := (congrArg (PairField s 0x8A _) (htag .nstr nofun)).mpr (pairField_settle (prologue s) 0x8A _)
    warn := (congrArg (WarningField s _) (htag .warn nofun)).mpr (warningField_settle (prologue s) _)
    bal := (congrArg (BalanceField s _) (htag .bal nofun)).mpr (balanceField_settle (prologue s) _)
    calma := (congrArg (PairField s 0xAD _) (htag .calma nofun)).mpr (pairField_settle (prologue s) 0xAD _)
    swver := (congrArg (VersionField s _) (htag .swver nofun)).mpr (versionField_settle (prologue s) _)
    calst := (congrArg (CalibrationField s _) (htag .calst nofun)).mpr (calibrationField_settle (prologue s) _)
    cap := (congrArg (PairField s 0xB9 _) (htag .cap nofun)).mpr (pairField_settle (prologue s) 0xB9 _)
    proto := (congrArg (ByteField s 0xC0 _) (htag .proto nofun)).mpr (byteField_settle (prologue s) 0xC0 _)
    delta := (congrArg (DeltaField _ _) (runDecode_delta s h)).mpr (deltaField_settle _ _) }

/-- Settles O42: by the rule of every field, the condition of every anomaly bit, and DECODE's frame. -/
theorem decodeGivesEveryFieldItsRule : Obligations.DecodeGivesEveryFieldItsRule := by
  intro s h
  have hst := runDecode_status s h
  refine ⟨runDecode s, rfl, decodesTo_runDecode h, ?_, ?_, ?_, ?_⟩
  · rw [hst]
    exact currentAnomaly_iff_deadZoneEntry s
  · rw [hst]
    exact calAnomaly_iff_unknownCalEntry s
  · rw [hst]
    exact cellsAnomaly_iff_badLengthBlock s
  · exact (runDecode_frame s).trans (by rw [hst])

/-- Settles O44: a tag's field depends on neither STATUS nor another field, so the cleared reading is all it needs. -/
theorem fieldsFailIndependently : Obligations.FieldsFailIndependently := by
  intro s t f h hf ht
  cases ht
  exact ⟨_, exec_opOf f _, (runDecode_field s h hf).trans
    (runField_congr (s := prologue s) hf rfl rfl (fun _ _ => rfl) (SameField.refl f _))⟩

/-! ### The order of the tag operations -/

theorem decodeOrder_perm {fs : List FieldId} (h : fs.Perm tagOps) :
    (fs ++ [FieldId.delta]).Perm decodeOrder :=
  h.append_right _

/-- Each tag's field is what its operation alone gives, and FDELTA reads the cells (R136, R137, R186). -/
theorem runFields_result_perm (s : State) {fs : List FieldId} (h : fs.Perm tagOps) :
    (runFields (fs ++ [.delta]) s).result = (runFields decodeOrder s).result := by
  have hperm := decodeOrder_perm h
  have htag : ∀ f, f ≠ .delta →
      SameField f (runFields (fs ++ [.delta]) s).result (runFields decodeOrder s).result := fun f hf =>
    (runFields_tag s hf (hperm.nodup_iff.2 decodeOrder_nodup) (hperm.mem_iff.2 (mem_decodeOrder f))).trans
      (runFields_tag s hf decodeOrder_nodup (mem_decodeOrder f)).symm
  have hdelta : (runFields fs s).result.delta = s.result.delta :=
    runFields_other (f := .delta) s fun hm => absurd (h.mem_iff.1 hm) (by decide)
  refine Reading.ext_fields fun f => ?_
  by_cases hf : f = .delta
  · subst hf
    show (runFields (fs ++ [.delta]) s).result.delta = (runFields decodeOrder s).result.delta
    rw [runFields_append_delta, hdelta, runFields_delta, deltaField_congr (htag .cells nofun)]
  · exact htag f hf

/-- STATUS depends on which operations are run only (R205). -/
theorem runFields_status_perm (s : State) {fs gs : List FieldId} (h : fs.Perm gs) :
    (runFields fs s).status = (runFields gs s).status := by
  rw [runFields_status, runFields_status]
  simp only [h.mem_iff]

theorem dropSp_eq_of_frame {u v : State} {p : U16} (h : u = { v with sp := p }) : dropSp u = dropSp v := by
  rw [h]
  rfl

/-- Settles O45: the order decides neither a field nor STATUS, and the operations write nothing else but the pointer. -/
theorem tagOperationOrderIsNotObservable : Obligations.TagOperationOrderIsNotObservable := by
  intro fs s h
  have hframe : runFields (fs ++ [.delta]) s = { runFields decodeOrder s with
      sp := (runFields (fs ++ [.delta]) s).sp
      result := (runFields (fs ++ [.delta]) s).result
      status := (runFields (fs ++ [.delta]) s).status } := by
    apply State.frame_of <;> simp
  rw [runFields_result_perm s h, runFields_status_perm s (decodeOrder_perm h)] at hframe
  exact dropSp_eq_of_frame hframe

/-! ### The sequence, step by step -/

/-- The sequencer's list is nothing to a field operation. -/
theorem runFields_takeOp (fs rest : List FieldId) (s : State) :
    runFields fs (s.takeOp rest) = (runFields fs s).takeOp rest := by
  induction fs generalizing s with
  | nil => rfl
  | cons f fs ih =>
    have hone : runField f (s.takeOp rest) = (runField f s).takeOp rest := by cases f <;> rfl
    rw [runFields_cons, hone, ih, runFields_cons]

theorem run_succ {M : Host.Core} {s u : M.State} (n : Nat) (h : M.step s = .next u) : M.run (n + 1) s = M.run n u := by
  rw [Host.Core.run, h]

theorem State.takeOp_eq_self {s : State} {rest : List FieldId} (h : s.seq = rest) : s.takeOp rest = s := by
  subst h
  rfl

/-- As many steps as there are operations at the head of the sequencer's list run these operations. -/
theorem core_run_seq (fs rest : List FieldId) {s : State} (h : s.seq = fs ++ rest) :
    core.run fs.length s = .next ((runFields fs s).takeOp rest) := by
  induction fs generalizing s with
  | nil => exact congrArg Host.Outcome.next (State.takeOp_eq_self h).symm
  | cons f fs ih =>
    have hstep : step s = .next (runField f (s.takeOp (fs ++ rest))) :=
      (stepRunsTheFieldOperation s f (fs ++ rest) h).trans (exec_opOf f _)
    rw [List.length_cons, run_succ (M := core) _ hstep, ih (runField_seq _ f), ← runFields_cons, runFields_takeOp]
    rfl

/-- Settles O46: seventeen steps run the seventeen operations, and the list is empty before and after. -/
theorem decodeIsItsSequenceOfOperations : Obligations.DecodeIsItsSequenceOfOperations := by
  intro s t h hseq ht
  cases ht
  have hstart := State.takeOp_eq_self (s := (prologue s).setLenOk true) hseq
  refine ⟨_, core_run_seq decodeOrder [] rfl, ?_⟩
  rw [← runFields_takeOp, runDecode_long s h]
  exact congrArg (fun u => (runFields decodeOrder u).finishDecode) hstart.symm

end Sys2Proof.Machine
end

section
/-! SUPPORT. The field operations with 1-byte and 2-byte payloads run by themselves, in every state: each leaves in its field
what the field's rule says of the buffer, and nothing else changes but SP and its own anomaly bit (R136, R151 to R167). -/

namespace Sys2Proof.Machine

/-! ### Fields without an anomaly bit -/

/-- Settles O29, by the temperature rule for each of the three tags. -/
theorem temperatureOperationsDecode : Obligations.TemperatureOperationsDecode := fun s =>
  ⟨⟨_, exec_opOf .ttube s, tempField_settle s 0x80 _, rfl⟩,
    ⟨_, exec_opOf .tbox s, tempField_settle s 0x81 _, rfl⟩,
    ⟨_, exec_opOf .tcell s, tempField_settle s 0x82 _, rfl⟩⟩

/-- Settles O31, by the two-byte rule for each of the four tags. -/
theorem plainTwoByteOperationsDecode : Obligations.PlainTwoByteOperationsDecode := fun s =>
  ⟨⟨_, exec_opOf .volt s, pairField_settle s 0x83 _, rfl⟩,
    ⟨_, exec_opOf .nstr s, pairField_settle s 0x8A _, rfl⟩,
    ⟨_, exec_opOf .calma s, pairField_settle s 0xAD _, rfl⟩,
    ⟨_, exec_opOf .cap s, pairField_settle s 0xB9 _, rfl⟩⟩

/-- Settles O33, by the one-byte rule for each of the three tags. -/
theorem plainOneByteOperationsDecode : Obligations.PlainOneByteOperationsDecode := fun s =>
  ⟨⟨_, exec_opOf .soc s, byteField_settle s 0x85 _, rfl⟩,
    ⟨_, exec_opOf .ntemp s, byteField_settle s 0x86 _, rfl⟩,
    ⟨_, exec_opOf .proto s, byteField_settle s 0xC0 _, rfl⟩⟩

/-- Settles O36, by the rule of the balance switch. -/
theorem balanceOperationDecodes : Obligations.BalanceOperationDecodes := fun s =>
  ⟨_, exec_opOf .bal s, balanceField_settle s _, rfl⟩

/-! ### Fields with an anomaly bit -/

/-- Settles O32, by the current's rule and the condition of `A_CUR`, which F84 only ever sets. -/
theorem currentOperationDecodes : Obligations.CurrentOperationDecodes := by
  intro s
  refine ⟨_, exec_opOf .cur s, currentField_settle s _, ?_, rfl⟩
  have hbit : (runField .cur s).status.aCur = (s.status.aCur || currentAnomaly s) := runField_aCur s .cur
  rw [hbit, Bool.or_eq_true, currentAnomaly_iff_deadZoneEntry]

/-- Settles O37, by the calibration's rule and the condition of `A_CAL`, which FB8 only ever sets. -/
theorem calibrationOperationDecodes : Obligations.CalibrationOperationDecodes := by
  intro s
  refine ⟨_, exec_opOf .calst s, calibrationField_settle s _, ?_, rfl⟩
  have hbit : (runField .calst s).status.aCal = (s.status.aCal || calAnomaly s) := runField_aCal s .calst
  rw [hbit, Bool.or_eq_true, calAnomaly_iff_unknownCalEntry]

/-! ### The set of active warnings -/

theorem warningNames_nodup : warningNames.Nodup := by decide

/-- A warning is active exactly when it is the name of a bit that is set (R162). -/
theorem mem_activeWarnings {s : State} {w : Warning} :
    w ∈ activeWarnings s ↔ ∃ i, warningNames[i]? = some w ∧ s.result.warn.val.wset.getLsbD i = true := by
  simp only [activeWarnings, List.mem_map, List.mem_filter, Prod.exists, List.mem_zipIdx_iff_getElem?]
  constructor
  · rintro ⟨_, i, ⟨hname, hset⟩, rfl⟩
    exact ⟨i, hname, hset⟩
  · rintro ⟨i, hname, hset⟩
    exact ⟨w, i, ⟨hname, hset⟩, rfl⟩

/-- No name stands for two bits, so a name is active exactly when its own bit is set. -/
theorem getElem_mem_activeWarnings (s : State) (i : Nat) (h : i < warningNames.length) :
    warningNames[i] ∈ activeWarnings s ↔ s.result.warn.val.wset.getLsbD i = true := by
  rw [mem_activeWarnings]
  constructor
  · rintro ⟨j, hname, hset⟩
    obtain ⟨hj, hname⟩ := List.getElem?_eq_some_iff.1 hname
    rwa [← warningNames_nodup.getElem_inj_iff.1 hname]
  · exact fun hset => ⟨i, List.getElem?_eq_getElem h, hset⟩

/-- Settles O35: the names stand in the table's order, and each is active by its own bit. -/
theorem activeWarningsFollowTheSet : Obligations.ActiveWarningsFollowTheSet :=
  ⟨rfl, getElem_mem_activeWarnings⟩

/-- Settles O34, by the rule of the warning word and its set of named bits. -/
theorem warningOperationDecodes : Obligations.WarningOperationDecodes := fun s =>
  ⟨_, exec_opOf .warn s, warningField_settle s _, getElem_mem_activeWarnings _, rfl⟩

end Sys2Proof.Machine
end

section
/-! SUPPORT. The cell voltages, the software version and the delta voltage run by themselves, in every state: each operation
leaves in its field what the field's rule says, and nothing else changes but SP and `A_CELL` (R181 to R186). -/

namespace Sys2Proof.Machine

/-- Settles O38, by the rule of the cell block and the condition of `A_CELL`, which F79 only ever sets. -/
theorem cellOperationDecodes : Obligations.CellOperationDecodes := by
  intro s
  refine ⟨_, exec_opOf .cells s, cellsField_settle s, ?_, rfl⟩
  have hbit : (runField .cells s).status.aCell = (s.status.aCell || cellsAnomaly s) := runField_aCell s .cells
  rw [hbit, Bool.or_eq_true, cellsAnomaly_iff_badLengthBlock]

/-- Settles O39, by the version's rule: fifteen bytes as they are, and the mask from each of them. -/
theorem versionOperationDecodes : Obligations.VersionOperationDecodes := fun s =>
  ⟨_, exec_opOf .swver s, versionField_settle s _, rfl⟩

/-- Settles O40, by the delta's rule over the cells that stand in the reading; FDELTA makes no search, so SP stays too. -/
theorem deltaOperationDecodes : Obligations.DeltaOperationDecodes := fun s =>
  ⟨_, exec_opOf .delta s, deltaField_settle s.result _, rfl⟩

end Sys2Proof.Machine
end

section
/-! SUPPORT. How a command ends: performed with ERR_NONE, refused with its error code and nothing else, or stopped at the
model's boundary (R200, R210, U13); DECODE of a buffer too short for a response (R206), and the cause codes (R202). -/

namespace Sys2Proof.Machine

/-! ### Performed and refused commands (R210) -/

/-- DECODE is never refused (R130, R131). -/
theorem runDecode_status_err (s : State) : (runDecode s).status.err = .none := by rw [runDecode_frame]

/-- Settles O48, by the ways a command ends: a refusal is an update of ERR, every other end writes ERR_NONE. -/
theorem refusedCommandChangesOnlyErr : Obligations.RefusedCommandChangesOnlyErr := by
  intro i s t hi h
  rcases exec_command_cases hi h with ⟨e, _, hbuild, hdecode, rfl⟩ | ⟨n, _, _, _, rfl⟩ | ⟨_, rfl⟩ |
    ⟨sel, a, b, _, _, _, rfl⟩ | ⟨sel, a, b, c, _, _, _, _, rfl⟩ | ⟨_, rfl⟩
  · exact ⟨.inr rfl, fun hbd => absurd hbd (not_or.2 ⟨hbuild, hdecode⟩)⟩
  · exact ⟨.inl rfl, fun _ => rfl⟩
  · exact ⟨.inl rfl, fun _ => rfl⟩
  · exact ⟨.inl rfl, fun _ => rfl⟩
  · exact ⟨.inl rfl, fun _ => rfl⟩
  · exact ⟨.inl (runDecode_status_err s), fun _ => runDecode_status_err s⟩

/-! ### Commands without a next state (R200, U13) -/

theorem exists_runCsum_eq_next (sel : Source) (a b : U16) (s : State) : ∃ t, runCsum sel a b s = .next t := by
  rcases runCsum_cases sel a b s with ⟨_, e⟩ | ⟨_, _, e⟩ | ⟨_, _, e⟩ <;> exact ⟨_, e⟩

theorem exists_runVerify_eq_next (sel : Source) (a b c : U16) (s : State) : ∃ t, runVerify sel a b c s = .next t := by
  rcases runVerify_cases sel a b c s with ⟨_, e⟩ | ⟨_, _, _, e⟩ | ⟨_, _, e⟩ <;> exact ⟨_, e⟩

/-- Every command but LOAD has a next state, performed or refused. -/
theorem exists_exec_command_eq_next {i : Instr} (hi : fieldOf i = none) (hload : ∀ n, i ≠ .load n) (s : State) :
    ∃ t, exec i s = .next t := by
  cases i with
  | load n => exact absurd rfl (hload n)
  | csum sel a b => exact exists_runCsum_eq_next sel a b s
  | csumall b => exact exists_runCsum_eq_next .rxb 0 b s
  | verify sel a b c => exact exists_runVerify_eq_next sel a b c s
  | chkframe => exact exists_runVerify_eq_next .txf 0 17 19 s
  | build => exact ⟨_, rfl⟩
  | decode => exact ⟨_, rfl⟩
  | reserved5 => exact ⟨_, rfl⟩
  | reserved6 => exact ⟨_, rfl⟩
  | reserved7 => exact ⟨_, rfl⟩
  | _ => cases hi

/-- Settles O8: a field operation always answers, so does a command other than LOAD, and LOAD by the ways it ends. -/
theorem onlyAMismatchedLoadHasNoNextState : Obligations.OnlyAMismatchedLoadHasNoNextState := by
  intro i s
  cases hi : fieldOf i with
  | some f =>
    rw [eq_opOf hi]
    exact .inl ⟨_, exec_opOf f s⟩
  | none =>
    by_cases hload : ∃ n, i = .load n
    · obtain ⟨n, rfl⟩ := hload
      rcases execLoad_cases n s with ⟨_, e⟩ | ⟨_, _, e⟩ | ⟨hn, hd, e⟩
      · exact .inl ⟨_, e⟩
      · exact .inl ⟨_, e⟩
      · exact .inr ⟨n, rfl, hn, hd, e⟩
    · exact .inl (exists_exec_command_eq_next hi (not_exists.1 hload) s)

/-! ### DECODE below the guard (R206) -/

/-- Settles O41: the reading is the cleared one with cause UNDERSIZED, and the rest is DECODE's effect below the guard. -/
theorem undersizedDecodeIsAllAbsent : Obligations.UndersizedDecodeIsAllAbsent := by
  intro s h
  refine ⟨runDecode s, rfl, ?_⟩
  rw [runDecode_short s h]
  exact ⟨fun f => ⟨Reading.blank_valid .undersized f, Reading.blank_cause .undersized f⟩,
    Reading.blank_absentReadsZero .undersized, rfl⟩

/-! ### The cause codes (R202) -/

theorem Cause.code_lt (c : Cause) : c.code.toNat < 7 := by cases c <;> decide

/-- Settles O53: the seven numbers by definition, and 7 is none of them since all lie below it. -/
theorem causeCodesAreTheTables : Obligations.CauseCodesAreTheTables :=
  ⟨rfl, rfl, rfl, rfl, rfl, rfl, rfl, fun c hc => absurd (congrArg BitVec.toNat hc) (Nat.ne_of_lt c.code_lt)⟩

end Sys2Proof.Machine
end

section
/-! SUPPORT. Right after reset every command has a defined effect (R232): the buffer is empty, TXF is not valid, and each
command's own rule says how it ends in that state. -/

namespace Sys2Proof.Machine

/-- The empty range of an empty buffer is accepted, and its sum is 0 (R106). -/
theorem exec_csum_rxb_zero_reset :
    ∃ t, exec (.csum .rxb 0 0) State.reset = .next t ∧ t.csr = 0 ∧ t.status.err = .none := by
  obtain ⟨_, _, hperformed⟩ := csumSumsTheRange .rxb 0 0 State.reset
  obtain ⟨t, hrun, hcsr, hframe⟩ := hperformed (.inl rfl) le_rfl le_rfl
  have hempty : rangeTotal State.reset .rxb 0 0 % 65536 = 0 := by simp [rangeTotal]
  exact ⟨t, hrun, BitVec.eq_of_toNat_eq (hcsr.trans hempty), by rw [hframe]⟩

/-- A range of one byte ends beyond an empty buffer (R106). -/
theorem exec_csum_rxb_one_reset :
    exec (.csum .rxb 0 1) State.reset = .next { State.reset with status.err := .range } := by
  obtain ⟨_, hrange, _⟩ := csumSumsTheRange .rxb 0 1 State.reset
  exact hrange (.inl rfl) (by decide)

/-- Whatever the parameter `BUF_MAX`, the buffer at reset is a buffer that LOAD can fill (R53). -/
theorem exec_load_reset {n : U16} {d : List Byte} (hn : n.toNat ≤ State.reset.cfg.bufMax) (hd : d.length = n.toNat) :
    ∃ t, exec (.load n) { State.reset with dataIn := d } = .next t ∧ t.rxlen = n ∧ t.status.err = .none := by
  have hwf : Memory.wf State.reset.rxb := by decide
  obtain ⟨_, hperformed⟩ := loadFillsTheBuffer n { State.reset with dataIn := d } hwf
  obtain ⟨t, hrun, _, _, hframe⟩ := hperformed hn hd
  exact ⟨t, hrun, by rw [hframe], by rw [hframe]⟩

/-- Settles O12: DECODE by its rule below the guard, BUILD by its rule in every state, and CSUM, VERIFY and LOAD by the
checks that an empty buffer and a frame not yet built pass or fail. -/
theorem everyCommandIsDefinedAfterReset : Obligations.EveryCommandIsDefinedAfterReset := by
  refine ⟨?decode, ?build, exec_csum_rxb_zero_reset, exec_csum_rxb_one_reset, fun a b => ?csumTxf, fun a b c => ?verifyTxf,
    fun _ _ => exec_load_reset⟩
  case decode =>
    obtain ⟨t, hrun, habsent, _, hframe⟩ := undersizedDecodeIsAllAbsent State.reset (Nat.zero_le 38)
    exact ⟨t, hrun, habsent, by rw [hframe], by rw [hframe]⟩
  case build =>
    obtain ⟨t, hrun, htxf, hframe⟩ := buildWritesTheRequestFrame State.reset
    exact ⟨t, hrun, htxf, by rw [hframe]⟩
  case csumTxf =>
    obtain ⟨huninit, _, _⟩ := csumSumsTheRange .txf a b State.reset
    exact huninit rfl rfl
  case verifyTxf =>
    obtain ⟨huninit, _, _⟩ := verifyComparesWithTheStoredBytes .txf a b c State.reset
    exact huninit rfl rfl

end Sys2Proof.Machine
end
